-- ==== Sys2Proof/Word.lean ====
section
/-! DEFINITION. The widths of the machine (00_scope.md R5, R6; 10_state.md R20, R33): bit 0 is the least significant bit. -/

namespace Sys2Proof

/-- A general register, an address, the pc: `XLEN` = `ALEN` = 32 (R5). -/
abbrev Word := BitVec 32

/-- A byte of memory (R40). -/
abbrev Byte := BitVec 8

/-- A half word: 16 bits (R10). -/
abbrev Half := BitVec 16

/-- The number of a general register: a 4-bit instruction field (R20). -/
abbrev RegNo := BitVec 4

/-- The number of a special register: the 16-bit field S (R33, R69). -/
abbrev SprNo := BitVec 16

/-- An instruction as it is fetched: 16 or 32 bits (R60). -/
inductive Code where
  | half (h : Half)
  | word (w : Word)
  deriving DecidableEq, Repr

/-- The two execution modes of the class tables (R32). -/
inductive Mode where
  | user
  | supervisor
  deriving DecidableEq, Repr

end Sys2Proof
end

