-- ==== Sys2Proof/Syntax.lean ====
section
/-! DEFINITION. The instructions: one constructor per row of spec/opcode_table.json, in the table's order, with the operand
fields of 30_encoding.md R63 under the source's letters. Split immediates are joined (R73). -/

namespace Sys2Proof

inductive Instr where
  -- 40_l_control.md
  | lIllegal
  | lJ (x : BitVec 26)
  | lJal (x : BitVec 26)
  | lBnf (x : BitVec 26)
  | lBf (x : BitVec 26)
  -- 41_l_loadstore.md: loads write A from base B, stores write base A from B (R110)
  | lLoad32u (a b : RegNo) (j : BitVec 17)
  | lLoad16u (a b : RegNo) (j : BitVec 17)
  | lLoad16s (a b : RegNo) (j : BitVec 17)
  | lLoad8u (a b : RegNo) (j : BitVec 17)
  | lLoad8s (a b : RegNo) (j : BitVec 17)
  | lStor32 (a b : RegNo) (j : BitVec 17)
  | lStor16 (a b : RegNo) (j : BitVec 17)
  | lStor8 (a b : RegNo) (j : BitVec 17)
  -- 42_l_immediate.md
  | lAddi32s (a b : RegNo) (imm : BitVec 18)
  | lSubi32s (a b : RegNo) (imm : BitVec 18)
  | lMuli32s (a b : RegNo) (imm : BitVec 16)
  | lXori16 (a b : RegNo) (imm : BitVec 16)
  | lImmlo16u (a : RegNo) (imm : BitVec 16)
  | lImmhi16u (a : RegNo) (imm : BitVec 16)
  -- 43_l_alu.md
  | lSub32s (a b c : RegNo)
  | lShla32 (a b c : RegNo) (l : BitVec 5)
  | lShra32 (a b c : RegNo) (l : BitVec 5)
  | lShrl32 (a b c : RegNo) (l : BitVec 5)
  | lAnd32 (a b c : RegNo)
  | lOr32 (a b c : RegNo)
  | lXor32 (a b c : RegNo)
  | lMul32s (a b c : RegNo)
  | lMul32u (a b c : RegNo)
  | lDiv32s (a b c : RegNo)
  | lDiv32u (a b c : RegNo)
  -- 44_l_system.md
  | lDcbf (a : RegNo) (j : BitVec 16)
  | lDcbt (a : RegNo) (j : BitVec 16)
  | lDcbi (a : RegNo) (j : BitVec 16)
  | lDcia
  | lDcfa
  | lTlbia
  | lMtsr (sn : SprNo) (a : RegNo)
  | lMfsr (a : RegNo) (sn : SprNo)
  -- 45_h_compare_move.md
  | hSfeq32 (a b : RegNo)
  | hSfne32 (a b : RegNo)
  | hSfgt32s (a b : RegNo)
  | hSfge32s (a b : RegNo)
  | hSflt32s (a b : RegNo)
  | hSfle32s (a b : RegNo)
  | hSfgt32u (a b : RegNo)
  | hSfge32u (a b : RegNo)
  | hSflt32u (a b : RegNo)
  | hSfle32u (a b : RegNo)
  | hMov32 (a b : RegNo)
  -- 46_h_ext_nop_jalr.md
  | hExt16s (a : RegNo)
  | hExt16z (a : RegNo)
  | hExt8s (a : RegNo)
  | hExt8z (a : RegNo)
  | hNop
  | hJalr (a : RegNo)
  -- 47_h_mem_add_imm_branch.md
  | hLoad32u (a b : RegNo) (n : BitVec 4)
  | hStor32 (a b : RegNo) (n : BitVec 4)
  | hAdd32s (a b d : RegNo)
  | hImmch32s (a : RegNo) (m : BitVec 8)
  /-- h.jal, first entry, opcode 0x9 (R79, R204). -/
  | hJal9 (x : BitVec 12)
  /-- h.jal, second entry, opcode 0xa (R79, R205). -/
  | hJalA (x : BitVec 12)
  | hBnf (x : BitVec 12)
  | hBf (x : BitVec 12)
  | hSched (z : BitVec 12)
  deriving DecidableEq, Repr

end Sys2Proof
end

