-- ==== Sys2Proof/WellFormed.lean ====
section
/-! DEFINITION. The check an instruction term must pass to be an instruction: the types of its fields carry every width
(30_encoding.md R63), and one value is not an encoding: `l.j` with X = 0 is the word of l.illegal (R78). -/

namespace Sys2Proof

/-- "l.j is every other word with `insn[31:26] = 0`, that is X from 1 to 0x3FFFFFF" (R78). -/
def Instr.wf : Instr → Bool
  | .lIllegal => true
  | .lJ x => x != 0
  | .lJal _ => true
  | .lBnf _ => true
  | .lBf _ => true
  | .lLoad32u _ _ _ => true
  | .lLoad16u _ _ _ => true
  | .lLoad16s _ _ _ => true
  | .lLoad8u _ _ _ => true
  | .lLoad8s _ _ _ => true
  | .lStor32 _ _ _ => true
  | .lStor16 _ _ _ => true
  | .lStor8 _ _ _ => true
  | .lAddi32s _ _ _ => true
  | .lSubi32s _ _ _ => true
  | .lMuli32s _ _ _ => true
  | .lXori16 _ _ _ => true
  | .lImmlo16u _ _ => true
  | .lImmhi16u _ _ => true
  | .lSub32s _ _ _ => true
  | .lShla32 _ _ _ _ => true
  | .lShra32 _ _ _ _ => true
  | .lShrl32 _ _ _ _ => true
  | .lAnd32 _ _ _ => true
  | .lOr32 _ _ _ => true
  | .lXor32 _ _ _ => true
  | .lMul32s _ _ _ => true
  | .lMul32u _ _ _ => true
  | .lDiv32s _ _ _ => true
  | .lDiv32u _ _ _ => true
  | .lDcbf _ _ => true
  | .lDcbt _ _ => true
  | .lDcbi _ _ => true
  | .lDcia => true
  | .lDcfa => true
  | .lTlbia => true
  | .lMtsr _ _ => true
  | .lMfsr _ _ => true
  | .hSfeq32 _ _ => true
  | .hSfne32 _ _ => true
  | .hSfgt32s _ _ => true
  | .hSfge32s _ _ => true
  | .hSflt32s _ _ => true
  | .hSfle32s _ _ => true
  | .hSfgt32u _ _ => true
  | .hSfge32u _ _ => true
  | .hSflt32u _ _ => true
  | .hSfle32u _ _ => true
  | .hMov32 _ _ => true
  | .hExt16s _ => true
  | .hExt16z _ => true
  | .hExt8s _ => true
  | .hExt8z _ => true
  | .hNop => true
  | .hJalr _ => true
  | .hLoad32u _ _ _ => true
  | .hStor32 _ _ _ => true
  | .hAdd32s _ _ _ => true
  | .hImmch32s _ _ => true
  | .hJal9 _ => true
  | .hJalA _ => true
  | .hBnf _ => true
  | .hBf _ => true
  | .hSched _ => true

end Sys2Proof
end

