-- ==== Sys2Proof/Decode.lean ====
section
/-! DEFINITION. Decoding (30_encoding.md), total on any word and any bytes, and the encoder.
The decoder follows the opcode map of R74 and its groups R75 to R77; the fields are those of R63, the split immediates
joined with the part in the higher instruction bits as the high-order part (R73). -/

namespace Sys2Proof

/-- Why a word is no instruction of the model. -/
inductive DecodeError where
  /-- It matches no row of the opcode table: executes as `raise IllegalInstruction` (R80). -/
  | unassigned
  /-- It matches a row and a bit of a field the figure calls "reserved" is 1 (R81). -/
  | reservedField
  /-- The bytes end before the instruction does (`decodeBytes` only). -/
  | truncated
  deriving DecidableEq, Repr

/-! ### Fields of a 32-bit instruction (R63) -/

def op6 (w : Word) : BitVec 6 := w.extractLsb' 26 6
def fieldA (w : Word) : RegNo := w.extractLsb' 20 4
def fieldB (w : Word) : RegNo := w.extractLsb' 16 4
def fieldC (w : Word) : RegNo := w.extractLsb' 12 4
def minor (w : Word) : BitVec 4 := w.extractLsb' 8 4
/-- X of format `L-X` (R64). -/
def immX26 (w : Word) : BitVec 26 := w.extractLsb' 0 26
/-- J of format `L-LS` (R65). -/
def immJ17 (w : Word) : BitVec 17 := w.extractLsb' 24 1 ++ w.extractLsb' 0 16
/-- I of format `L-I18` (R66). -/
def immI18 (w : Word) : BitVec 18 := w.extractLsb' 24 2 ++ w.extractLsb' 0 16
/-- I of formats `L-I16` and `L-I16A` (R67). -/
def immI16 (w : Word) : BitVec 16 := w.extractLsb' 0 16
/-- L of format `L-RL` (R68). -/
def immL5 (w : Word) : BitVec 5 := w.extractLsb' 3 5
/-- J of format `L-SJ` and S of format `L-SS` (R69). -/
def immS16 (w : Word) : BitVec 16 := w.extractLsb' 12 8 ++ w.extractLsb' 0 8

/-! ### Fields of a 16-bit instruction (R63) -/

def hA (h : Half) : RegNo := h.extractLsb' 4 4
def hB (h : Half) : RegNo := h.extractLsb' 0 4
/-- N of format `H-NRR` (R70) and the register D of format `H-DRR` (R72). -/
def hN (h : Half) : BitVec 4 := h.extractLsb' 8 4
/-- M of format `H-M` (R71). -/
def hM (h : Half) : BitVec 8 := h.extractLsb' 8 4 ++ h.extractLsb' 0 4
/-- X of format `H-X` and Z of format `H-Z` (R72). -/
def hX (h : Half) : BitVec 12 := h.extractLsb' 0 12

/-- R81: an instruction with a non-zero reserved bit is refused; `r` is the reserved field. -/
def ifZero (r : Nat) (i : Instr) : Except DecodeError Instr :=
  if r = 0 then .ok i else .error .reservedField

/-- The register-register group, first byte 0x2C (R75). -/
def decodeAlu (w : Word) : Except DecodeError Instr :=
  let r := (w.extractLsb' 0 8).toNat
  let rl := (w.extractLsb' 0 3).toNat
  match minor w with
  | 0x0#4 => ifZero r (.lSub32s (fieldA w) (fieldB w) (fieldC w))
  | 0x1#4 => ifZero rl (.lShla32 (fieldA w) (fieldB w) (fieldC w) (immL5 w))
  | 0x2#4 => ifZero rl (.lShra32 (fieldA w) (fieldB w) (fieldC w) (immL5 w))
  | 0x3#4 => ifZero rl (.lShrl32 (fieldA w) (fieldB w) (fieldC w) (immL5 w))
  | 0x4#4 => ifZero r (.lAnd32 (fieldA w) (fieldB w) (fieldC w))
  | 0x5#4 => ifZero r (.lOr32 (fieldA w) (fieldB w) (fieldC w))
  | 0x6#4 => ifZero r (.lXor32 (fieldA w) (fieldB w) (fieldC w))
  | 0x7#4 => ifZero r (.lMul32s (fieldA w) (fieldB w) (fieldC w))
  | 0x8#4 => ifZero r (.lMul32u (fieldA w) (fieldB w) (fieldC w))
  | 0x9#4 => ifZero r (.lDiv32s (fieldA w) (fieldB w) (fieldC w))
  | 0xA#4 => ifZero r (.lDiv32u (fieldA w) (fieldB w) (fieldC w))
  | _ => .error .unassigned

/-- The system group, first byte 0x30 (R76). The field A of l.dcia, l.dcfa and l.tlbia is reserved too (R81). -/
def decodeSystem (w : Word) : Except DecodeError Instr :=
  let r := (w.extractLsb' 12 12 ++ w.extractLsb' 0 8).toNat
  match minor w with
  | 0x0#4 => .ok (.lDcbf (fieldA w) (immS16 w))
  | 0x1#4 => .ok (.lDcbt (fieldA w) (immS16 w))
  | 0x2#4 => .ok (.lDcbi (fieldA w) (immS16 w))
  | 0x3#4 => ifZero r .lDcia
  | 0x4#4 => ifZero r .lDcfa
  | 0x5#4 => ifZero r .lTlbia
  | 0x6#4 => .ok (.lMtsr (immS16 w) (fieldA w))
  | 0x7#4 => .ok (.lMfsr (fieldA w) (immS16 w))
  | _ => .error .unassigned

/-- A 32-bit instruction (R74). The top six bits select the row of the map; where the source's opcode is 7 or 8 bits wide,
the bits below them select within it. The all-zero word is l.illegal (R78). -/
def decodeWord (w : Word) : Except DecodeError Instr :=
  match op6 w with
  | 0x00#6 => if w = 0 then .ok .lIllegal else .ok (.lJ (immX26 w))
  | 0x01#6 => .ok (.lJal (immX26 w))
  | 0x02#6 => .ok (.lBnf (immX26 w))
  | 0x03#6 => .ok (.lBf (immX26 w))
  | 0x04#6 =>
    match w.extractLsb' 25 1 with
    | 0#1 => .ok (.lLoad32u (fieldA w) (fieldB w) (immJ17 w))
    | _ => .ok (.lLoad16u (fieldA w) (fieldB w) (immJ17 w))
  | 0x05#6 =>
    match w.extractLsb' 25 1 with
    | 0#1 => .ok (.lLoad16s (fieldA w) (fieldB w) (immJ17 w))
    | _ => .ok (.lLoad8u (fieldA w) (fieldB w) (immJ17 w))
  | 0x06#6 =>
    match w.extractLsb' 25 1 with
    | 0#1 => .ok (.lLoad8s (fieldA w) (fieldB w) (immJ17 w))
    | _ => .ok (.lStor32 (fieldA w) (fieldB w) (immJ17 w))
  | 0x07#6 =>
    match w.extractLsb' 25 1 with
    | 0#1 => .ok (.lStor16 (fieldA w) (fieldB w) (immJ17 w))
    | _ => .ok (.lStor8 (fieldA w) (fieldB w) (immJ17 w))
  | 0x08#6 => .ok (.lAddi32s (fieldA w) (fieldB w) (immI18 w))
  | 0x09#6 => .ok (.lSubi32s (fieldA w) (fieldB w) (immI18 w))
  | 0x0A#6 =>
    match w.extractLsb' 24 2 with
    | 0#2 => .ok (.lMuli32s (fieldA w) (fieldB w) (immI16 w))
    | 1#2 => .ok (.lXori16 (fieldA w) (fieldB w) (immI16 w))
    | 2#2 => ifZero (w.extractLsb' 16 4).toNat (.lImmlo16u (fieldA w) (immI16 w))
    | _ => ifZero (w.extractLsb' 16 4).toNat (.lImmhi16u (fieldA w) (immI16 w))
  | 0x0B#6 =>
    match w.extractLsb' 24 2 with
    | 0#2 => decodeAlu w
    | _ => .error .unassigned
  | 0x0C#6 =>
    match w.extractLsb' 24 2 with
    | 0#2 => decodeSystem w
    | _ => .error .unassigned
  | _ => .error .unassigned

/-- The single-register group, first byte 0x4B (R77). -/
def decodeSingle (h : Half) : Except DecodeError Instr :=
  let r := (h.extractLsb' 3 1).toNat
  match h.extractLsb' 0 3 with
  | 0#3 => ifZero r (.hExt16s (hA h))
  | 1#3 => ifZero r (.hExt16z (hA h))
  | 2#3 => ifZero r (.hExt8s (hA h))
  | 3#3 => ifZero r (.hExt8z (hA h))
  | 4#3 => ifZero (h.extractLsb' 3 5).toNat .hNop
  | 5#3 => ifZero r (.hJalr (hA h))
  | _ => .error .unassigned

/-- First bytes 0x40 to 0x4F (R74). -/
def decodeCompare (h : Half) : Except DecodeError Instr :=
  match h.extractLsb' 8 4 with
  | 0x0#4 => .ok (.hSfeq32 (hA h) (hB h))
  | 0x1#4 => .ok (.hSfne32 (hA h) (hB h))
  | 0x2#4 => .ok (.hSfgt32s (hA h) (hB h))
  | 0x3#4 => .ok (.hSfge32s (hA h) (hB h))
  | 0x4#4 => .ok (.hSflt32s (hA h) (hB h))
  | 0x5#4 => .ok (.hSfle32s (hA h) (hB h))
  | 0x6#4 => .ok (.hSfgt32u (hA h) (hB h))
  | 0x7#4 => .ok (.hSfge32u (hA h) (hB h))
  | 0x8#4 => .ok (.hSflt32u (hA h) (hB h))
  | 0x9#4 => .ok (.hSfle32u (hA h) (hB h))
  | 0xA#4 => .ok (.hMov32 (hA h) (hB h))
  | 0xB#4 => decodeSingle h
  | _ => .error .unassigned

/-- A 16-bit instruction (R74). -/
def decodeHalf (h : Half) : Except DecodeError Instr :=
  match h.extractLsb' 12 4 with
  | 0x4#4 => decodeCompare h
  | 0x5#4 => .ok (.hLoad32u (hA h) (hB h) (hN h))
  | 0x6#4 => .ok (.hStor32 (hA h) (hB h) (hN h))
  | 0x7#4 => .ok (.hAdd32s (hA h) (hB h) (hN h))
  | 0x8#4 => .ok (.hImmch32s (hA h) (hM h))
  | 0x9#4 => .ok (.hJal9 (hX h))
  | 0xA#4 => .ok (.hJalA (hX h))
  | 0xB#4 => .ok (.hBnf (hX h))
  | 0xC#4 => .ok (.hBf (hX h))
  | 0xF#4 => .ok (.hSched (hX h))
  | _ => .error .unassigned

/-- R62: "Decoding then matches the returned word against `opcode_table.json`". -/
def decode : Code → Except DecodeError Instr
  | .half h => decodeHalf h
  | .word w => decodeWord w

/-- R61: "the two most significant bits decide: 00 means 32 bits, anything else means 16 bits". -/
def isLong (h : Half) : Bool := h.extractLsb' 14 2 == 0

/-- The length of an instruction in bytes (R60, R62). -/
def Code.len : Code → Word
  | .half _ => 2
  | .word _ => 4

/-- An instruction from the bytes at the lowest addresses first, big-endian (20_memory.md R43, R58), with the bytes left. -/
def decodeBytes : List Byte → Except DecodeError (Instr × List Byte)
  | b0 :: b1 :: rest =>
    if isLong (b0 ++ b1) then
      match rest with
      | b2 :: b3 :: rest' =>
        match decode (.word (b0 ++ b1 ++ b2 ++ b3)) with
        | .ok i => .ok (i, rest')
        | .error e => .error e
      | _ => .error .truncated
    else
      match decode (.half (b0 ++ b1)) with
      | .ok i => .ok (i, rest)
      | .error e => .error e
  | _ => .error .truncated

/-- The four bytes, lowest address first, of a table row's instruction `w` of `nbits` bits followed by zeros: a 16-bit row
is one half word, a 32-bit row one word (log 24). -/
def tableBytes (nbits w : Nat) : List Byte :=
  let v : Word := if nbits ≤ 16 then BitVec.ofNat 16 w ++ 0#16 else BitVec.ofNat 32 w
  [v.extractLsb' 24 8, v.extractLsb' 16 8, v.extractLsb' 8 8, v.extractLsb' 0 8]

/-- What the decoder reads from an instruction numbered as spec/opcode_table.json numbers it. -/
def decodeTableWord (nbits w : Nat) : Option Instr :=
  match decodeBytes (tableBytes nbits w) with
  | .ok (i, _) => some i
  | .error _ => none

/-! ### The encoder: the figures of R63 with the opcodes of R74 to R77; reserved fields are written as zero (R81) -/

def encLX (op : BitVec 6) (x : BitVec 26) : Code := .word (op ++ x)
def encLLS (op : BitVec 7) (a b : RegNo) (j : BitVec 17) : Code :=
  .word (op ++ j.extractLsb' 16 1 ++ a ++ b ++ j.extractLsb' 0 16)
def encLI18 (op : BitVec 6) (a b : RegNo) (i : BitVec 18) : Code :=
  .word (op ++ i.extractLsb' 16 2 ++ a ++ b ++ i.extractLsb' 0 16)
def encLI16 (op : BitVec 8) (a b : RegNo) (i : BitVec 16) : Code := .word (op ++ a ++ b ++ i)
def encLR (op : BitVec 4) (a b c : RegNo) : Code := .word (0x2C#8 ++ a ++ b ++ c ++ op ++ 0#8)
def encLRL (op : BitVec 4) (a b c : RegNo) (l : BitVec 5) : Code :=
  .word (0x2C#8 ++ a ++ b ++ c ++ op ++ l ++ 0#3)
def encLS (op : BitVec 4) (a : RegNo) (j : BitVec 16) : Code :=
  .word (0x30#8 ++ a ++ j.extractLsb' 8 8 ++ op ++ j.extractLsb' 0 8)
def encHRR (op : BitVec 8) (a b : RegNo) : Code := .half (op ++ a ++ b)
def encHR1 (op : BitVec 3) (a : RegNo) : Code := .half (0x4B#8 ++ a ++ 0#1 ++ op)
def encHNRR (op n : BitVec 4) (a b : RegNo) : Code := .half (op ++ n ++ a ++ b)
def encHX (op : BitVec 4) (x : BitVec 12) : Code := .half (op ++ x)

/-- The word of a well-formed instruction. -/
def encode : Instr → Code
  | .lIllegal => .word 0
  | .lJ x => encLX 0x0 x
  | .lJal x => encLX 0x1 x
  | .lBnf x => encLX 0x2 x
  | .lBf x => encLX 0x3 x
  | .lLoad32u a b j => encLLS 0x8 a b j
  | .lLoad16u a b j => encLLS 0x9 a b j
  | .lLoad16s a b j => encLLS 0xA a b j
  | .lLoad8u a b j => encLLS 0xB a b j
  | .lLoad8s a b j => encLLS 0xC a b j
  | .lStor32 a b j => encLLS 0xD a b j
  | .lStor16 a b j => encLLS 0xE a b j
  | .lStor8 a b j => encLLS 0xF a b j
  | .lAddi32s a b i => encLI18 0x8 a b i
  | .lSubi32s a b i => encLI18 0x9 a b i
  | .lMuli32s a b i => encLI16 0x28 a b i
  | .lXori16 a b i => encLI16 0x29 a b i
  | .lImmlo16u a i => encLI16 0x2A a 0 i
  | .lImmhi16u a i => encLI16 0x2B a 0 i
  | .lSub32s a b c => encLR 0x0 a b c
  | .lShla32 a b c l => encLRL 0x1 a b c l
  | .lShra32 a b c l => encLRL 0x2 a b c l
  | .lShrl32 a b c l => encLRL 0x3 a b c l
  | .lAnd32 a b c => encLR 0x4 a b c
  | .lOr32 a b c => encLR 0x5 a b c
  | .lXor32 a b c => encLR 0x6 a b c
  | .lMul32s a b c => encLR 0x7 a b c
  | .lMul32u a b c => encLR 0x8 a b c
  | .lDiv32s a b c => encLR 0x9 a b c
  | .lDiv32u a b c => encLR 0xA a b c
  | .lDcbf a j => encLS 0x0 a j
  | .lDcbt a j => encLS 0x1 a j
  | .lDcbi a j => encLS 0x2 a j
  | .lDcia => encLS 0x3 0 0
  | .lDcfa => encLS 0x4 0 0
  | .lTlbia => encLS 0x5 0 0
  | .lMtsr n a => encLS 0x6 a n
  | .lMfsr a n => encLS 0x7 a n
  | .hSfeq32 a b => encHRR 0x40 a b
  | .hSfne32 a b => encHRR 0x41 a b
  | .hSfgt32s a b => encHRR 0x42 a b
  | .hSfge32s a b => encHRR 0x43 a b
  | .hSflt32s a b => encHRR 0x44 a b
  | .hSfle32s a b => encHRR 0x45 a b
  | .hSfgt32u a b => encHRR 0x46 a b
  | .hSfge32u a b => encHRR 0x47 a b
  | .hSflt32u a b => encHRR 0x48 a b
  | .hSfle32u a b => encHRR 0x49 a b
  | .hMov32 a b => encHRR 0x4A a b
  | .hExt16s a => encHR1 0x0 a
  | .hExt16z a => encHR1 0x1 a
  | .hExt8s a => encHR1 0x2 a
  | .hExt8z a => encHR1 0x3 a
  | .hNop => .half 0x4B04
  | .hJalr a => encHR1 0x5 a
  | .hLoad32u a b n => encHNRR 0x5 n a b
  | .hStor32 a b n => encHNRR 0x6 n a b
  | .hAdd32s a b d => encHNRR 0x7 d a b
  | .hImmch32s a m => encHNRR 0x8 (m.extractLsb' 4 4) a (m.extractLsb' 0 4)
  | .hJal9 x => encHX 0x9 x
  | .hJalA x => encHX 0xA x
  | .hBnf x => encHX 0xB x
  | .hBf x => encHX 0xC x
  | .hSched z => encHX 0xF z

end Sys2Proof
end

