-- ==== Sys2Proof/Config.lean ====
section
/-! DEFINITION. The implementation and launch parameters of 00_scope.md R5, and the free value `draw_32()` of R8.
The parameters are plain data: State holds one `Params` that no step changes (log 1), so that a claim about every state is
a claim about every value of every parameter. -/

namespace Sys2Proof

/-- Sparse bytes: (address, byte) pairs, addresses strictly rising and below 2^32; an unlisted address holds no value
(20_memory.md R44, R46; log 13). `Memory.wf` (Machine/Ops.lean) is that form. -/
abbrev Memory := List Host.Cell

/-- How a 16-bit immediate is widened: parameters `XORI16_EXT` and `MULI_EXT` (R5). -/
inductive ImmExt where
  | zero
  | sign
  deriving DecidableEq, Repr

/-- `INSN32_ALIGN`: 4 by decision D4, "2 is the other admissible value" (R5). -/
inductive InsnAlign where
  | two
  | four
  deriving DecidableEq, Repr

/-- A run of byte addresses `base .. base + size - 1`. -/
structure Region where
  base : Nat
  size : Nat
  deriving DecidableEq, Repr

/-- The parameters of R5 that are not derived and not fixed by a rule. -/
structure Params where
  /-- `LINK_REG`: which general register is the link register (R23, OPEN). -/
  linkReg : RegNo
  /-- `R0_ZERO`: general register 0 reads as zero and drops writes (R22). -/
  r0Zero : Bool
  /-- `INSN32_ALIGN` (R48). -/
  insn32Align : InsnAlign
  /-- `IMPL_CLASS2`: the Recommended instructions are implemented (R80). -/
  implClass2 : Bool
  /-- `IMPL_CLASS3`: the Optional instructions are implemented (R80). -/
  implClass3 : Bool
  /-- `HAS_CACHE`: no rule reads it, the Class 5 instructions are refused either way (R150). -/
  hasCache : Bool
  /-- `HAS_MMU`: no rule reads it, the Class 6 instruction is refused either way (R150). -/
  hasMmu : Bool
  /-- `XORI16_EXT` (R124). -/
  xori16Ext : ImmExt
  /-- `MULI_EXT` (R123). -/
  muliExt : ImmExt
  /-- `ILLEGAL_VECTOR`: the "address of illegal instruction exception handler" (R222, OPEN). -/
  illegalVector : Word
  /-- `RESET_PC` (R35, OPEN). -/
  resetPc : Word
  /-- `INITIAL_MODE` (R35). -/
  initialMode : Mode
  /-- `SPR_PLAIN`: the special registers that are plain storage (R33). -/
  sprPlain : List SprNo
  /-- `HALT_PC` (R12, OPEN); `none` where the launch names no halt address (log 10). -/
  haltPc : Option Word
  /-- `RAM`: the byte addresses backed by ordinary memory (R46, OPEN). -/
  ram : List Region
  /-- `TEXT`: the program text, read by fetch and never stored to (R55, OPEN). -/
  text : Memory
  deriving DecidableEq, Repr

/-- The values of R5's table. The OPEN ones: `linkReg` 9 as 95_test_vectors.md section 2 instantiates it (PRESUMED, log 6),
`resetPc` 0x1000, the vectors' start address (DESIGN CHOICE, log 5), `illegalVector` 0 (DESIGN CHOICE, log 7), `ram` the whole
address space (DESIGN CHOICE, log 8), no `haltPc` (DESIGN CHOICE, log 10), no program (log 9). -/
def Params.default : Params where
  linkReg := 9
  r0Zero := false
  insn32Align := .four
  implClass2 := true
  implClass3 := true
  hasCache := false
  hasMmu := false
  xori16Ext := .zero
  muliExt := .sign
  illegalVector := 0
  resetPc := 0x1000
  initialMode := .supervisor
  sprPlain := []
  haltPc := none
  ram := [⟨0, 0x100000000⟩]
  text := []

/-- `draw_32()`: "a 32-bit value the rules do not determine ... a claim must hold for every draw" (R8). The n-th draw of a
run; it has no body, so nothing can be proved of its value (log 12). -/
opaque Config.draw32 : Nat → Word

end Sys2Proof
end

