-- ==== Sys2Proof/Machine/State.lean ====
section
/-! DEFINITION. The state of the machine (10_state.md section 1), the reasons a step can stop (60_exceptions.md R225, R226),
and the state after reset (10_state.md R35). -/

namespace Sys2Proof.Machine

open Sys2Proof

/-- The open delay slot: the pending target, `none` for a branch that is not taken, and the first address behind the slot's
4 bytes (R30). -/
structure Slot where
  target : Option Word
  fin : Word
  deriving DecidableEq, Repr

/-- Everything the spec gives the machine. Registers are read and written through `State.readReg`, `State.writeReg`,
`State.readSpr` and `State.writeSpr`, memory through `State.byteAt` and the operations of Machine/Ops.lean. -/
structure State where
  /-- x[0] .. x[15] (R20). -/
  regs : Vector Word 16
  /-- The program counter (R26). -/
  pc : Word
  /-- The compare flag (R27). -/
  flag : Bool
  /-- The divisor flag (R28). -/
  divflag : Bool
  /-- The execution mode (R32). -/
  mode : Mode
  /-- spr[0] .. spr[65535] (R33): (number, value) pairs, numbers strictly rising, no value 0; an unlisted one holds 0 (log 4). -/
  spr : List (Nat × Word)
  /-- The open delay slot (R30). -/
  dslot : Option Slot
  /-- The bytes outside TEXT that hold a value (R46); TEXT's own bytes are in `params.text`. -/
  mem : Memory
  /-- How many values `draw_32()` has given: the model's own field, no register of the machine (log 12). -/
  draws : Nat
  /-- The parameters of the run (00_scope.md R5), which no step changes (log 1). -/
  params : Params
  deriving DecidableEq, Repr

/-- What stops the machine as a fault (00_scope.md R9 (b)); a faulted run is never final. -/
inductive Fault where
  /-- The illegal instruction exception (R220 to R224), raised by `raiseIllegalInstruction`: l.illegal, an unassigned
  encoding, an instruction of a switched-off class. `pc` and `insn` are the report of R221; `handler` is the address that the
  one stated effect, `pc <- ILLEGAL_VECTOR` (R222), puts in the pc. Safe: the run ends (R224; log 15). -/
  | illegalInstruction (pc : Word) (insn : Code) (handler : Word)
  /-- A memory byte without a value was read (R44, R225), raised by the loads. Safe (log 13). -/
  | unwrittenRead
  /-- The effective address is no multiple of the access size (R47, R225), raised by loads and stores. Safe (log 16). -/
  | misaligned
  /-- A supervisor-only instruction in User mode (R228), raised by the eight of 44_l_system.md. Safe (log 16). -/
  | privilegeViolation
  deriving DecidableEq, Repr

/-- What the spec gives no meaning (00_scope.md R9 (c), 60_exceptions.md R226). Each is safe: it takes the run out of what
can be proved (log 17). -/
inductive Refusal where
  /-- An instruction without a meaning yet, raised by `exec`'s arms alone; no arm does. Safe. -/
  | notModelled (mnemonic : String)
  /-- Odd pc, or a 32-bit instruction off its alignment (R48, R62), raised by `fetch`. Safe. -/
  | misalignedFetch
  /-- A byte of the instruction is not in TEXT (R55), raised by `fetch`. Safe. -/
  | fetchOutsideText
  /-- An instruction in an open delay slot ends behind the slot (R31), raised by `front`. Safe. -/
  | delaySlotOverrun
  /-- A jump or branch while a delay slot is open (R30), raised by `delayed`. Safe. -/
  | controlTransferInDelaySlot
  /-- A taken jump to an odd address (R30), raised by `delayed`. Safe. -/
  | oddTarget
  /-- A reserved bit is 1 (R81), raised by `front`. Safe. -/
  | reservedFieldNonZero
  /-- A cache or TLB instruction whose Description is "TBD" (R150), raised by those six. Safe. -/
  | semanticsTBD
  /-- l.mtsr or l.mfsr of a number outside `SPR_PLAIN` (R157, R158), raised by those two. Safe. -/
  | unknownSpecialRegister
  /-- A load or store touches an address outside `RAM` (R46), raised by both. Safe. -/
  | outsideRam
  /-- A store touches an address in `TEXT` (R55), raised by stores. Safe. -/
  | storeToText
  deriving DecidableEq, Repr

/-- The state a launch with parameters `p` starts from (R35, R240). General registers, flags and special registers: the
spec gives no value, the model takes 0 (DESIGN CHOICE, logs 2, 3, 4). -/
def State.resetWith (p : Params) : State where
  regs := Vector.replicate 16 0
  pc := p.resetPc
  flag := false
  divflag := false
  mode := p.initialMode
  spr := []
  dslot := none
  mem := []
  draws := 0
  params := p

/-- The machine after reset: R35 with the parameter values of R5. -/
def State.reset : State := State.resetWith Params.default

end Sys2Proof.Machine
end

