-- ==== Sys2Proof/Machine/Ops.lean ====
section
/-! DEFINITION. The named operations every meaning is written over: registers, special registers, memory, the delay slot,
the checks, and taking the one exception. -/

namespace Sys2Proof.Machine

open Sys2Proof

/-- The outcome of one instruction (00_scope.md R9). -/
abbrev Result := Host.Outcome State Fault Refusal

/-- Why an operation inside an instruction does not complete. -/
inductive Stop where
  | fault (f : Fault)
  | refused (r : Refusal)
  deriving DecidableEq, Repr

/-- The instruction stops and writes nothing (R227). -/
def Stop.out : Stop → Result
  | .fault f => .fault f
  | .refused r => .refused r

/-! ### Sparse storage: (key, value) pairs, keys strictly rising -/

/-- The value listed for key `k`. -/
def lookupKey {α : Type} (k : Nat) : List (Nat × α) → Option α
  | [] => none
  | (k', v) :: rest => if k = k' then some v else lookupKey k rest

/-- `k` now has the value `v`; the order is kept. -/
def insertKey {α : Type} (k : Nat) (v : α) : List (Nat × α) → List (Nat × α)
  | [] => [(k, v)]
  | (k', v') :: rest =>
    if k < k' then (k, v) :: (k', v') :: rest
    else if k = k' then (k, v) :: rest
    else (k', v') :: insertKey k v rest

/-- `k` is no longer listed. -/
def eraseKey {α : Type} (k : Nat) : List (Nat × α) → List (Nat × α)
  | [] => []
  | (k', v') :: rest => if k = k' then eraseKey k rest else (k', v') :: eraseKey k rest

/-- The keys rise strictly and the first is above every key before it; `lo` is the least key allowed. -/
def rising {α : Type} (lo : Nat) : List (Nat × α) → Bool
  | [] => true
  | (k, _) :: rest => decide (lo ≤ k) && rising (k + 1) rest

/-- The canonical form of memory: addresses strictly rising, each below 2^32 (R40). Every listed byte is a value, and an
unlisted address has none, so no entry repeats what an unlisted address reads as. -/
def Memory.wf (m : Memory) : Bool :=
  rising 0 m && m.all (fun c => decide (c.1 < 4294967296))

/-- The canonical form of the special registers: numbers strictly rising, each below 65536, no value 0 (R33). -/
def sprWf (l : List (Nat × Word)) : Bool :=
  rising 0 l && l.all (fun c => decide (c.1 < 65536) && c.2 != 0)

/-! ### General registers -/

/-- `x[i]`: "If `R0_ZERO` and i = 0 the value is 0" (R8, R22). A register always holds a value here (log 2). -/
def State.readReg (s : State) (i : RegNo) : Word :=
  if s.params.r0Zero && i == 0 then 0 else s.regs.get i.toFin

/-- `x[i] <- v`: "If `R0_ZERO` and i = 0 the write is dropped" (R8, R22). -/
def State.writeReg (s : State) (i : RegNo) (v : Word) : State :=
  if s.params.r0Zero && i == 0 then s else { s with regs := s.regs.set i.toNat v i.isLt }

/-! ### Special registers -/

/-- `spr[n]` (R33). -/
def State.readSpr (s : State) (n : SprNo) : Word :=
  (lookupKey n.toNat s.spr).getD 0

/-- `spr[n] <- v` (R157); the value 0 is kept by listing nothing. -/
def State.writeSpr (s : State) (n : SprNo) (v : Word) : State :=
  { s with spr := if v = 0 then eraseKey n.toNat s.spr else insertKey n.toNat v s.spr }

/-! ### Memory -/

/-- The address is in `RAM` (R46). -/
def inRam (p : Params) (a : Nat) : Bool :=
  p.ram.any (fun r => decide (r.base ≤ a) && decide (a < r.base + r.size))

/-- The address is in `TEXT` (R55). -/
def inText (p : Params) (a : Nat) : Bool :=
  (lookupKey a p.text).isSome

/-- The byte held at an address, if it holds one: TEXT's byte, or the last one stored (R46, R53, R55; log 22). -/
def State.byteAt (s : State) (a : Word) : Option Byte :=
  match lookupKey a.toNat s.params.text with
  | some b => some b
  | none => lookupKey a.toNat s.mem

/-- The addresses of the `n` bytes at `ea`, modulo 2^32 (R44). -/
def bytesAt (ea : Word) (n : Nat) : List Word :=
  (List.range n).map (fun k => ea + BitVec.ofNat 32 k)

/-- The tests of a data access of `n` bytes, in the order of R227 item 15. -/
def dataCheck (p : Params) (ea : Word) (n : Nat) (store : Bool) : Option Stop :=
  if ea.toNat % n ≠ 0 then some (.fault .misaligned)
  else if (bytesAt ea n).any (fun a => !inRam p a.toNat) then some (.refused .outsideRam)
  else if store && (bytesAt ea n).any (fun a => inText p a.toNat) then some (.refused .storeToText)
  else none

/-- `MemRead(addr, 1)` (R44). -/
def memRead8 (s : State) (ea : Word) : Except Stop Byte :=
  match dataCheck s.params ea 1 false with
  | some st => .error st
  | none =>
    match s.byteAt ea with
    | some b0 => .ok b0
    | none => .error (.fault .unwrittenRead)

/-- `MemRead(addr, 2)`: "b(0) is bits 15:8" (R44). -/
def memRead16 (s : State) (ea : Word) : Except Stop Half :=
  match dataCheck s.params ea 2 false with
  | some st => .error st
  | none =>
    match s.byteAt ea, s.byteAt (ea + 1) with
    | some b0, some b1 => .ok (b0 ++ b1)
    | _, _ => .error (.fault .unwrittenRead)

/-- `MemRead(addr, 4)`: "b(0) is bits 31:24" (R44). -/
def memRead32 (s : State) (ea : Word) : Except Stop Word :=
  match dataCheck s.params ea 4 false with
  | some st => .error st
  | none =>
    match s.byteAt ea, s.byteAt (ea + 1), s.byteAt (ea + 2), s.byteAt (ea + 3) with
    | some b0, some b1, some b2, some b3 => .ok (b0 ++ b1 ++ b2 ++ b3)
    | _, _, _, _ => .error (.fault .unwrittenRead)

/-- One byte stored. -/
def State.putByte (s : State) (a : Word) (b : Byte) : State :=
  { s with mem := insertKey a.toNat b s.mem }

/-- The bytes stored at `ea`, `ea + 1`, ... (R45). -/
def State.putBytes (s : State) (ea : Word) : List Byte → State
  | [] => s
  | b :: bs => (s.putByte ea b).putBytes (ea + 1) bs

/-- `MemWrite(addr, n, v)` with the n bytes of v, most significant first (R45). -/
def memWrite (s : State) (ea : Word) (bs : List Byte) : Result :=
  match dataCheck s.params ea bs.length true with
  | some st => st.out
  | none => .next (s.putBytes ea bs)

/-- The bytes of a word, a half word and a byte as `MemWrite` lays them out (R45). -/
def bytes32 (v : Word) : List Byte :=
  [v.extractLsb' 24 8, v.extractLsb' 16 8, v.extractLsb' 8 8, v.extractLsb' 0 8]
def bytes16 (v : Half) : List Byte := [v.extractLsb' 8 8, v.extractLsb' 0 8]
def bytes8 (v : Byte) : List Byte := [v]

/-- A load's end: the datum into x[A], or the access's stop (R110). -/
def loadInto (s : State) (a : RegNo) (r : Except Stop Word) : Result :=
  match r with
  | .ok v => .next (s.writeReg a v)
  | .error st => st.out

/-! ### Taking the exception -/

/-- `raise IllegalInstruction(pc)`: "The step's outcome is the fault `IllegalInstruction`", nothing is written, and the one
stated effect, `pc <- ILLEGAL_VECTOR`, is the fault's `handler` (R222, R224; log 15). The spec has no return from it (R230). -/
def raiseIllegalInstruction (insn : Code) (s : State) : Result :=
  .fault (.illegalInstruction s.pc insn s.params.illegalVector)

/-! ### Checks before an instruction's own rule, in the order of R227 -/

/-- R227 item 8: a Class 2 instruction raises IllegalInstruction where `IMPL_CLASS2` is false (R80). -/
def needClass2 (insn : Code) (s : State) (r : Result) : Result :=
  if s.params.implClass2 then r else raiseIllegalInstruction insn s

/-- R227 item 8: a Class 3 instruction raises IllegalInstruction where `IMPL_CLASS3` is false (R80). -/
def needClass3 (insn : Code) (s : State) (r : Result) : Result :=
  if s.params.implClass3 then r else raiseIllegalInstruction insn s

/-- R227 item 9: "A supervisor-only instruction fetched with `mode = User` faults" (R228). -/
def needSupervisor (s : State) (r : Result) : Result :=
  match s.mode with
  | .supervisor => r
  | .user => .fault .privilegeViolation

/-- R227 item 13: the special register must be plain storage (R157, R158). -/
def needPlainSpr (n : SprNo) (s : State) (r : Result) : Result :=
  if s.params.sprPlain.contains n then r else .refused .unknownSpecialRegister

/-! ### Jumps and branches -/

/-- `delayed(taken, target)` of an instruction whose delay slot begins at `d` (R30). `s` is the state the instruction
leaves apart from the slot. -/
def delayed (taken : Bool) (target d : Word) (s : State) : Result :=
  if s.dslot.isSome then .refused .controlTransferInDelaySlot
  else if taken && target.getLsbD 0 then .refused .oddTarget
  else .next { s with dslot := some ⟨if taken then some target else none, d + 4⟩ }

/-- A jump that puts `D + 4`, "the address of the instruction after the delay slot", in the link register (R23, R103). -/
def jumpAndLink (target d : Word) (s : State) : Result :=
  delayed true target d (s.writeReg s.params.linkReg (d + 4))

end Sys2Proof.Machine
end

