-- ==== Sys2Proof/Machine/Cycle.lean ====
section
/-! DEFINITION. The execution cycle around an instruction's own rule (10_state.md R31): fetch, the tests before the
instruction, and what becomes of the pc and the delay slot after it. -/

namespace Sys2Proof.Machine

open Sys2Proof

/-- `FetchHalf(a)`: the two bytes of TEXT at `a`, big-endian (20_memory.md R58). -/
def fetchHalf (s : State) (a : Word) : Except Refusal Half :=
  match lookupKey a.toNat s.params.text, lookupKey (a + 1).toNat s.params.text with
  | some b0, some b1 => .ok (b0 ++ b1)
  | _, _ => .error .fetchOutsideText

/-- `Fetch(a)` (30_encoding.md R62; items 1 to 4 of R227). -/
def fetch (s : State) (a : Word) : Except Refusal Code :=
  if a.getLsbD 0 then .error .misalignedFetch
  else
    match fetchHalf s a with
    | .error r => .error r
    | .ok h0 =>
      if isLong h0 then
        if s.params.insn32Align = .four ∧ a.getLsbD 1 then .error .misalignedFetch
        else
          match fetchHalf s (a + 2) with
          | .error r => .error r
          | .ok h1 => .ok (.word (h0 ++ h1))
      else .ok (.half h0)

/-- The run is over: `pc = HALT_PC` and no delay slot is open (00_scope.md R12; log 10). -/
def State.runOver (s : State) : Bool :=
  s.params.haltPc == some s.pc && s.dslot.isNone

/-- An instruction of `len` bytes in an open slot ends behind it: "if e - next (mod 2^32) > 2" (R31). -/
def slotOverrun (s : State) (len : Word) : Bool :=
  match s.dslot with
  | none => false
  | some d => decide ((d.fin - (s.pc + len)).toNat > 2)

/-- What the cycle finds before an instruction's own rule: the step is done, or an instruction of `len` bytes runs. -/
inductive Front where
  | done (o : Result)
  | run (i : Instr) (len : Word)

/-- The end-of-run test, fetch, the slot test and decoding: items 1 to 7 of R227 (R12, R31, R62, R80, R81). A run that is
over stays where it is (log 10). -/
def front (s : State) : Front :=
  if s.runOver then .done (.next s)
  else
    match fetch s s.pc with
    | .error r => .done (.refused r)
    | .ok c =>
      if slotOverrun s c.len then .done (.refused .delaySlotOverrun)
      else
        match decode c with
        | .ok i => .run i c.len
        | .error .reservedField => .done (.refused .reservedFieldNonZero)
        | .error .unassigned => .done (raiseIllegalInstruction c s)
        | .error .truncated => .done (raiseIllegalInstruction c s)

/-- The end of the cycle: `t` is what the instruction, `len` bytes long at `s.pc`, left (R31). A slot that was open before
it closes when the instruction reaches its end, and control is then at the target. -/
def advance (s : State) (len : Word) (t : State) : State :=
  match s.dslot with
  | some d =>
    if s.pc + len = d.fin then { t with dslot := none, pc := d.target.getD d.fin }
    else { t with pc := s.pc + len }
  | none => { t with pc := s.pc + len }

/-- `advance` on the outcome of the instruction. -/
def retire (s : State) (len : Word) : Result → Result
  | .next t => .next (advance s len t)
  | .fault f => .fault f
  | .refused r => .refused r

/-- The bytes `bs` listed in TEXT at `a`, `a + 1`, ... -/
def textWith (a : Word) : List Byte → Memory → Memory
  | [], m => m
  | b :: bs, m => textWith (a + 1) bs (insertKey a.toNat b m)

/-- The launch state `s` with `bs` as program text at its pc, and no end of run there (R241; log 9). -/
def placeText (s : State) (bs : List Byte) : State :=
  { s with params := { s.params with
      text := textWith s.pc bs s.params.text
      haltPc := if s.params.haltPc = some s.pc then none else s.params.haltPc } }

end Sys2Proof.Machine
end

