-- ==== Sys2Proof/Machine/Operands.lean ====
section
/-! DEFINITION. Operand forms and result computations: extension, effective addresses, targets, shift counts, products and
quotients. -/

namespace Sys2Proof.Machine

open Sys2Proof

/-- `sext_32(v)` (R8). -/
def sext {n : Nat} (v : BitVec n) : Word := v.signExtend 32

/-- `zext_32(v)` (R8). -/
def zext {n : Nat} (v : BitVec n) : Word := v.setWidth 32

/-- A 16-bit immediate widened as a parameter says (R67). -/
def extImm (e : ImmExt) (i : BitVec 16) : Word :=
  match e with
  | .zero => zext i
  | .sign => sext i

/-- EA = base + sext_32(offset), modulo 2^32 (R110, R200). -/
def effAddr {n : Nat} (s : State) (base : RegNo) (off : BitVec n) : Word :=
  s.readReg base + sext off

/-- D, the address of the delay slot, of a 32-bit jump or branch (R26, R100). -/
def slotAddrL (s : State) : Word := s.pc + 4

/-- D of a 16-bit jump or branch (R26, R209). -/
def slotAddrH (s : State) : Word := s.pc + 2

/-- EA = D + sext_32(X ++ 0b00), 26-bit X (R64, R100). -/
def targetL (s : State) (x : BitVec 26) : Word := slotAddrL s + sext (x ++ 0#2)

/-- EA = D + sext_32(X ++ 0b00), 12-bit X (R72, R209). -/
def targetH (s : State) (x : BitVec 12) : Word := slotAddrH s + sext (x ++ 0#2)

/-- b = L OR x[C][4:0], 0 to 31 (R132). -/
def shiftCount (s : State) (c : RegNo) (l : BitVec 5) : Nat :=
  (l ||| (s.readReg c).extractLsb' 0 5).toNat

/-- Bits 31:b are x[B][31-b:0], bits b-1:0 are zero (R132). -/
def shiftLeft (v : Word) (b : Nat) : Word := v <<< b

/-- Bits 31-b:0 are x[B][31:b], the rest copies of x[B][31] (R133). -/
def shiftRightArith (v : Word) (b : Nat) : Word := v.sshiftRight b

/-- Bits 31-b:0 are x[B][31:b], the rest zero (R134). -/
def shiftRightLogical (v : Word) (b : Nat) : Word := v >>> b

/-- The low 32 bits of the product of the operands read as signed integers (R131). -/
def mulSigned (x y : Word) : Word := BitVec.ofInt 32 (x.toInt * y.toInt)

/-- The low 32 bits of the product of the operands read as unsigned integers (R131). -/
def mulUnsigned (x y : Word) : Word := BitVec.ofNat 32 (x.toNat * y.toNat)

/-- The signed quotient rounded toward zero, or `none` where the spec gives `draw_32()`: d = 0, and -2^31 / -1 (R143). -/
def divSigned (n d : Word) : Option Word :=
  if d = 0 then none
  else if n = 0x80000000 ∧ d = 0xFFFFFFFF then none
  else some (BitVec.ofInt 32 (n.toInt.tdiv d.toInt))

/-- The unsigned quotient rounded down, or `none` where the spec gives `draw_32()`: d = 0 (R143). -/
def divUnsigned (n d : Word) : Option Word :=
  if d = 0 then none else some (BitVec.ofNat 32 (n.toNat / d.toNat))

/-- The low half replaced, the high half kept (R125). -/
def setLow (v : Word) (i : BitVec 16) : Word := v.extractLsb' 16 16 ++ i

/-- The high half replaced, the low half kept (R126). -/
def setHigh (v : Word) (i : BitVec 16) : Word := i ++ v.extractLsb' 0 16

/-- `x[A] <- v`, an instruction's whole effect; the pc moves in the common step (R31). -/
def writeResult (s : State) (a : RegNo) (v : Word) : Result := .next (s.writeReg a v)

end Sys2Proof.Machine
end

