-- ==== Sys2Proof/Machine/Flags.lean ====
section
/-! DEFINITION. The two flags: the relations of the ten compares (45_h_compare_move.md R170) and the divisor flag (R28, R143). -/

namespace Sys2Proof.Machine

open Sys2Proof

/-- The relations, the operand of field A first (R170). -/
def relEq (x y : Word) : Bool := decide (x = y)
def relNe (x y : Word) : Bool := decide (x ≠ y)
def relGtS (x y : Word) : Bool := decide (x.toInt > y.toInt)
def relGeS (x y : Word) : Bool := decide (x.toInt ≥ y.toInt)
def relLtS (x y : Word) : Bool := decide (x.toInt < y.toInt)
def relLeS (x y : Word) : Bool := decide (x.toInt ≤ y.toInt)
def relGtU (x y : Word) : Bool := decide (x.toNat > y.toNat)
def relGeU (x y : Word) : Bool := decide (x.toNat ≥ y.toNat)
def relLtU (x y : Word) : Bool := decide (x.toNat < y.toNat)
def relLeU (x y : Word) : Bool := decide (x.toNat ≤ y.toNat)

/-- "`flag <- 1` if the relation holds and `flag <- 0` if not" (R170). -/
def compareRegs (rel : Word → Word → Bool) (a b : RegNo) (s : State) : Result :=
  .next { s with flag := rel (s.readReg a) (s.readReg b) }

/-- "sets it to 1 on a zero divisor and leaves it unchanged otherwise" (R28). -/
def State.noteDivisor (s : State) (d : Word) : State :=
  if d = 0 then { s with divflag := true } else s

/-- The quotient into x[A], or where the rules give none the next value of `draw_32()`, which nothing constrains (R143; log 12). -/
def State.writeQuotient (s : State) (a : RegNo) (q : Option Word) : State :=
  match q with
  | some v => s.writeReg a v
  | none => { s.writeReg a (Config.draw32 s.draws) with draws := s.draws + 1 }

end Sys2Proof.Machine
end

