-- ==== Sys2Proof/Machine/HCompareMove.lean ====
section
/-! DEFINITION. 45_h_compare_move.md (R170 to R181). -/

namespace Sys2Proof.Machine

open Sys2Proof

/-- R171. -/
def execHSfeq32 (a b : RegNo) (s : State) : Result := compareRegs relEq a b s
/-- R172. -/
def execHSfne32 (a b : RegNo) (s : State) : Result := compareRegs relNe a b s
/-- R173. -/
def execHSfgt32s (a b : RegNo) (s : State) : Result := compareRegs relGtS a b s
/-- R174. -/
def execHSfge32s (a b : RegNo) (s : State) : Result := compareRegs relGeS a b s
/-- R175. -/
def execHSflt32s (a b : RegNo) (s : State) : Result := compareRegs relLtS a b s
/-- R176. -/
def execHSfle32s (a b : RegNo) (s : State) : Result := compareRegs relLeS a b s
/-- R177. -/
def execHSfgt32u (a b : RegNo) (s : State) : Result := compareRegs relGtU a b s
/-- R178. -/
def execHSfge32u (a b : RegNo) (s : State) : Result := compareRegs relGeU a b s
/-- R179. -/
def execHSflt32u (a b : RegNo) (s : State) : Result := compareRegs relLtU a b s
/-- R180. -/
def execHSfle32u (a b : RegNo) (s : State) : Result := compareRegs relLeU a b s

/-- R181: Class 2. -/
def execHMov32 (a b : RegNo) (s : State) : Result :=
  needClass2 (encode (.hMov32 a b)) s (writeResult s a (s.readReg b))

end Sys2Proof.Machine
end

