-- ==== Sys2Proof/Machine/HExtNopJalr.lean ====
section
/-! DEFINITION. 46_h_ext_nop_jalr.md (R190 to R196). -/

namespace Sys2Proof.Machine

open Sys2Proof

/-- R191: Class 2. -/
def execHExt16s (a : RegNo) (s : State) : Result :=
  needClass2 (encode (.hExt16s a)) s (writeResult s a (sext ((s.readReg a).extractLsb' 0 16)))

/-- R192: Class 2. -/
def execHExt16z (a : RegNo) (s : State) : Result :=
  needClass2 (encode (.hExt16z a)) s (writeResult s a (zext ((s.readReg a).extractLsb' 0 16)))

/-- R193: Class 2. -/
def execHExt8s (a : RegNo) (s : State) : Result :=
  needClass2 (encode (.hExt8s a)) s (writeResult s a (sext ((s.readReg a).extractLsb' 0 8)))

/-- R196: Class 2. -/
def execHExt8z (a : RegNo) (s : State) : Result :=
  needClass2 (encode (.hExt8z a)) s (writeResult s a (zext ((s.readReg a).extractLsb' 0 8)))

/-- R194: "This instruction does not do anything"; the pc advances in the common step. -/
def execHNop (s : State) : Result := .next s

/-- R195: the target is read before the link register is written. -/
def execHJalr (a : RegNo) (s : State) : Result := jumpAndLink (s.readReg a) (slotAddrH s) s

end Sys2Proof.Machine
end

