-- ==== Sys2Proof/Machine/HMemAddImmBranch.lean ====
section
/-! DEFINITION. 47_h_mem_add_imm_branch.md (R200 to R209). -/

namespace Sys2Proof.Machine

open Sys2Proof

/-- R200: Class 2; the offset counts bytes. -/
def execHLoad32u (a b : RegNo) (n : BitVec 4) (s : State) : Result :=
  needClass2 (encode (.hLoad32u a b n)) s (loadInto s a (memRead32 s (effAddr s b n)))

/-- R201: Class 2; A is the base, B the data. -/
def execHStor32 (a b : RegNo) (n : BitVec 4) (s : State) : Result :=
  needClass2 (encode (.hStor32 a b n)) s (memWrite s (effAddr s a n) (bytes32 (s.readReg b)))

/-- R202: the second addend is the register of field D (90_conflicts.md C7). -/
def execHAdd32s (a b d : RegNo) (s : State) : Result :=
  writeResult s a (s.readReg b + s.readReg d)

/-- R203: Class 2; no register is read. -/
def execHImmch32s (a : RegNo) (m : BitVec 8) (s : State) : Result :=
  needClass2 (encode (.hImmch32s a m)) s (writeResult s a (sext m))

/-- R204: opcode 0x9, "exactly those of rule R205" (90_conflicts.md C8). -/
def execHJal9 (x : BitVec 12) (s : State) : Result :=
  needClass2 (encode (.hJal9 x)) s (jumpAndLink (targetH s x) (slotAddrH s) s)

/-- R205: opcode 0xa. -/
def execHJalA (x : BitVec 12) (s : State) : Result :=
  needClass2 (encode (.hJalA x)) s (jumpAndLink (targetH s x) (slotAddrH s) s)

/-- R206. -/
def execHBnf (x : BitVec 12) (s : State) : Result :=
  needClass2 (encode (.hBnf x)) s (delayed (!s.flag) (targetH s x) (slotAddrH s) s)

/-- R207. -/
def execHBf (x : BitVec 12) (s : State) : Result :=
  needClass2 (encode (.hBf x)) s (delayed s.flag (targetH s x) (slotAddrH s) s)

/-- R208: Class 3; no architectural effect for any Z (R82). -/
def execHSched (z : BitVec 12) (s : State) : Result :=
  needClass3 (encode (.hSched z)) s (.next s)

end Sys2Proof.Machine
end

