-- ==== Sys2Proof/Machine/LAlu.lean ====
section
/-! DEFINITION. 43_l_alu.md (R130 to R144): sources B and C, destination A. -/

namespace Sys2Proof.Machine

open Sys2Proof

/-- R135. -/
def execLSub32s (a b c : RegNo) (s : State) : Result :=
  writeResult s a (s.readReg b - s.readReg c)

/-- R132. -/
def execLShla32 (a b c : RegNo) (l : BitVec 5) (s : State) : Result :=
  writeResult s a (shiftLeft (s.readReg b) (shiftCount s c l))

/-- R133. -/
def execLShra32 (a b c : RegNo) (l : BitVec 5) (s : State) : Result :=
  writeResult s a (shiftRightArith (s.readReg b) (shiftCount s c l))

/-- R134. -/
def execLShrl32 (a b c : RegNo) (l : BitVec 5) (s : State) : Result :=
  writeResult s a (shiftRightLogical (s.readReg b) (shiftCount s c l))

/-- R136. -/
def execLAnd32 (a b c : RegNo) (s : State) : Result :=
  writeResult s a (s.readReg b &&& s.readReg c)

/-- R137. -/
def execLOr32 (a b c : RegNo) (s : State) : Result :=
  writeResult s a (s.readReg b ||| s.readReg c)

/-- R138. -/
def execLXor32 (a b c : RegNo) (s : State) : Result :=
  writeResult s a (s.readReg b ^^^ s.readReg c)

/-- R139: Class 2. -/
def execLMul32s (a b c : RegNo) (s : State) : Result :=
  needClass2 (encode (.lMul32s a b c)) s (writeResult s a (mulSigned (s.readReg b) (s.readReg c)))

/-- R140: Class 2. -/
def execLMul32u (a b c : RegNo) (s : State) : Result :=
  needClass2 (encode (.lMul32u a b c)) s (writeResult s a (mulUnsigned (s.readReg b) (s.readReg c)))

/-- R141: Class 3. -/
def execLDiv32s (a b c : RegNo) (s : State) : Result :=
  needClass3 (encode (.lDiv32s a b c)) s
    (.next ((s.writeQuotient a (divSigned (s.readReg b) (s.readReg c))).noteDivisor (s.readReg c)))

/-- R142: Class 3. -/
def execLDiv32u (a b c : RegNo) (s : State) : Result :=
  needClass3 (encode (.lDiv32u a b c)) s
    (.next ((s.writeQuotient a (divUnsigned (s.readReg b) (s.readReg c))).noteDivisor (s.readReg c)))

end Sys2Proof.Machine
end

