-- ==== Sys2Proof/Machine/LControl.lean ====
section
/-! DEFINITION. 40_l_control.md: l.illegal, l.j, l.jal, l.bnf, l.bf. -/

namespace Sys2Proof.Machine

open Sys2Proof

/-- R101: "always an illegal instruction exception". -/
def execLIllegal (s : State) : Result := raiseIllegalInstruction (encode .lIllegal) s

/-- R102: no link register is written (90_conflicts.md C2). -/
def execLJ (x : BitVec 26) (s : State) : Result := delayed true (targetL s x) (slotAddrL s) s

/-- R103. -/
def execLJal (x : BitVec 26) (s : State) : Result := jumpAndLink (targetL s x) (slotAddrL s) s

/-- R104: taken if the flag is clear when the branch executes. -/
def execLBnf (x : BitVec 26) (s : State) : Result := delayed (!s.flag) (targetL s x) (slotAddrL s) s

/-- R105: taken if the flag is set when the branch executes. -/
def execLBf (x : BitVec 26) (s : State) : Result := delayed s.flag (targetL s x) (slotAddrL s) s

end Sys2Proof.Machine
end

