-- ==== Sys2Proof/Machine/LImmediate.lean ====
section
/-! DEFINITION. 42_l_immediate.md (R120 to R126). -/

namespace Sys2Proof.Machine

open Sys2Proof

/-- R121: modulo 2^32, no flag, no exception (R130). -/
def execLAddi32s (a b : RegNo) (imm : BitVec 18) (s : State) : Result :=
  writeResult s a (s.readReg b + sext imm)

/-- R122. -/
def execLSubi32s (a b : RegNo) (imm : BitVec 18) (s : State) : Result :=
  writeResult s a (s.readReg b - sext imm)

/-- R123: Class 2; the immediate is widened as `MULI_EXT` says. -/
def execLMuli32s (a b : RegNo) (imm : BitVec 16) (s : State) : Result :=
  needClass2 (encode (.lMuli32s a b imm)) s
    (writeResult s a (mulSigned (s.readReg b) (extImm s.params.muliExt imm)))

/-- R124: Class 3; the immediate is widened as `XORI16_EXT` says (90_conflicts.md C4). -/
def execLXori16 (a b : RegNo) (imm : BitVec 16) (s : State) : Result :=
  needClass3 (encode (.lXori16 a b imm)) s
    (writeResult s a (s.readReg b ^^^ extImm s.params.xori16Ext imm))

/-- R125: "bits 31:16 as they were". -/
def execLImmlo16u (a : RegNo) (imm : BitVec 16) (s : State) : Result :=
  writeResult s a (setLow (s.readReg a) imm)

/-- R126: "bits 15:0 keep their value". -/
def execLImmhi16u (a : RegNo) (imm : BitVec 16) (s : State) : Result :=
  writeResult s a (setHigh (s.readReg a) imm)

end Sys2Proof.Machine
end

