-- ==== Sys2Proof/Machine/LLoadStore.lean ====
section
/-! DEFINITION. 41_l_loadstore.md (R110 to R119). Loads: A is the destination, B the base; stores: A is the base, B the data. -/

namespace Sys2Proof.Machine

open Sys2Proof

/-- R111. -/
def execLLoad32u (a b : RegNo) (j : BitVec 17) (s : State) : Result :=
  loadInto s a (memRead32 s (effAddr s b j))

/-- R112. -/
def execLLoad16u (a b : RegNo) (j : BitVec 17) (s : State) : Result :=
  loadInto s a ((memRead16 s (effAddr s b j)).map zext)

/-- R113. -/
def execLLoad16s (a b : RegNo) (j : BitVec 17) (s : State) : Result :=
  loadInto s a ((memRead16 s (effAddr s b j)).map sext)

/-- R114. -/
def execLLoad8u (a b : RegNo) (j : BitVec 17) (s : State) : Result :=
  loadInto s a ((memRead8 s (effAddr s b j)).map zext)

/-- R115: bit 7 of the loaded byte fills the high bits (90_conflicts.md C3). -/
def execLLoad8s (a b : RegNo) (j : BitVec 17) (s : State) : Result :=
  loadInto s a ((memRead8 s (effAddr s b j)).map sext)

/-- R116. -/
def execLStor32 (a b : RegNo) (j : BitVec 17) (s : State) : Result :=
  memWrite s (effAddr s a j) (bytes32 (s.readReg b))

/-- R117: "The low-order 16 bits of general register rB". -/
def execLStor16 (a b : RegNo) (j : BitVec 17) (s : State) : Result :=
  memWrite s (effAddr s a j) (bytes16 ((s.readReg b).extractLsb' 0 16))

/-- R118: "The low-order 8 bits of general register rB". -/
def execLStor8 (a b : RegNo) (j : BitVec 17) (s : State) : Result :=
  memWrite s (effAddr s a j) (bytes8 ((s.readReg b).extractLsb' 0 8))

end Sys2Proof.Machine
end

