-- ==== Sys2Proof/Machine/LSystem.lean ====
section
/-! DEFINITION. 44_l_system.md (R150 to R158): all eight are supervisor only. The six cache and TLB instructions are
"refused with `SemanticsTBD`, whatever `HAS_CACHE` and `HAS_MMU` are. They must not be modelled as no-operations" (R150). -/

namespace Sys2Proof.Machine

open Sys2Proof

/-- R151: Description "TBD". -/
def execLDcbf (_a : RegNo) (_j : BitVec 16) (s : State) : Result := needSupervisor s (.refused .semanticsTBD)

/-- R152: Description "TBD". -/
def execLDcbt (_a : RegNo) (_j : BitVec 16) (s : State) : Result := needSupervisor s (.refused .semanticsTBD)

/-- R153: Description "TBD". -/
def execLDcbi (_a : RegNo) (_j : BitVec 16) (s : State) : Result := needSupervisor s (.refused .semanticsTBD)

/-- R154: Description "TBD". -/
def execLDcia (s : State) : Result := needSupervisor s (.refused .semanticsTBD)

/-- R155: Description "TBD". -/
def execLDcfa (s : State) : Result := needSupervisor s (.refused .semanticsTBD)

/-- R156: Description "TBD". -/
def execLTlbia (s : State) : Result := needSupervisor s (.refused .semanticsTBD)

/-- R157. -/
def execLMtsr (n : SprNo) (a : RegNo) (s : State) : Result :=
  needSupervisor s (needPlainSpr n s (.next (s.writeSpr n (s.readReg a))))

/-- R158. -/
def execLMfsr (a : RegNo) (n : SprNo) (s : State) : Result :=
  needSupervisor s (needPlainSpr n s (writeResult s a (s.readSpr n)))

end Sys2Proof.Machine
end

