-- ==== Sys2Proof/Machine/Dispatch.lean ====
section
/-! DEFINITION. One arm per row of spec/opcode_table.json, each one call of the instruction's meaning. -/

namespace Sys2Proof.Machine

open Sys2Proof

def exec (i : Instr) (s : State) : Host.Outcome State Fault Refusal :=
  match i with
  | .lIllegal => Sys2Proof.Machine.execLIllegal s
  | .lJ x => Sys2Proof.Machine.execLJ x s
  | .lJal x => Sys2Proof.Machine.execLJal x s
  | .lBnf x => Sys2Proof.Machine.execLBnf x s
  | .lBf x => Sys2Proof.Machine.execLBf x s
  | .lLoad32u a b j => Sys2Proof.Machine.execLLoad32u a b j s
  | .lLoad16u a b j => Sys2Proof.Machine.execLLoad16u a b j s
  | .lLoad16s a b j => Sys2Proof.Machine.execLLoad16s a b j s
  | .lLoad8u a b j => Sys2Proof.Machine.execLLoad8u a b j s
  | .lLoad8s a b j => Sys2Proof.Machine.execLLoad8s a b j s
  | .lStor32 a b j => Sys2Proof.Machine.execLStor32 a b j s
  | .lStor16 a b j => Sys2Proof.Machine.execLStor16 a b j s
  | .lStor8 a b j => Sys2Proof.Machine.execLStor8 a b j s
  | .lAddi32s a b imm => Sys2Proof.Machine.execLAddi32s a b imm s
  | .lSubi32s a b imm => Sys2Proof.Machine.execLSubi32s a b imm s
  | .lMuli32s a b imm => Sys2Proof.Machine.execLMuli32s a b imm s
  | .lXori16 a b imm => Sys2Proof.Machine.execLXori16 a b imm s
  | .lImmlo16u a imm => Sys2Proof.Machine.execLImmlo16u a imm s
  | .lImmhi16u a imm => Sys2Proof.Machine.execLImmhi16u a imm s
  | .lSub32s a b c => Sys2Proof.Machine.execLSub32s a b c s
  | .lShla32 a b c l => Sys2Proof.Machine.execLShla32 a b c l s
  | .lShra32 a b c l => Sys2Proof.Machine.execLShra32 a b c l s
  | .lShrl32 a b c l => Sys2Proof.Machine.execLShrl32 a b c l s
  | .lAnd32 a b c => Sys2Proof.Machine.execLAnd32 a b c s
  | .lOr32 a b c => Sys2Proof.Machine.execLOr32 a b c s
  | .lXor32 a b c => Sys2Proof.Machine.execLXor32 a b c s
  | .lMul32s a b c => Sys2Proof.Machine.execLMul32s a b c s
  | .lMul32u a b c => Sys2Proof.Machine.execLMul32u a b c s
  | .lDiv32s a b c => Sys2Proof.Machine.execLDiv32s a b c s
  | .lDiv32u a b c => Sys2Proof.Machine.execLDiv32u a b c s
  | .lDcbf a j => Sys2Proof.Machine.execLDcbf a j s
  | .lDcbt a j => Sys2Proof.Machine.execLDcbt a j s
  | .lDcbi a j => Sys2Proof.Machine.execLDcbi a j s
  | .lDcia => Sys2Proof.Machine.execLDcia s
  | .lDcfa => Sys2Proof.Machine.execLDcfa s
  | .lTlbia => Sys2Proof.Machine.execLTlbia s
  | .lMtsr sn a => Sys2Proof.Machine.execLMtsr sn a s
  | .lMfsr a sn => Sys2Proof.Machine.execLMfsr a sn s
  | .hSfeq32 a b => Sys2Proof.Machine.execHSfeq32 a b s
  | .hSfne32 a b => Sys2Proof.Machine.execHSfne32 a b s
  | .hSfgt32s a b => Sys2Proof.Machine.execHSfgt32s a b s
  | .hSfge32s a b => Sys2Proof.Machine.execHSfge32s a b s
  | .hSflt32s a b => Sys2Proof.Machine.execHSflt32s a b s
  | .hSfle32s a b => Sys2Proof.Machine.execHSfle32s a b s
  | .hSfgt32u a b => Sys2Proof.Machine.execHSfgt32u a b s
  | .hSfge32u a b => Sys2Proof.Machine.execHSfge32u a b s
  | .hSflt32u a b => Sys2Proof.Machine.execHSflt32u a b s
  | .hSfle32u a b => Sys2Proof.Machine.execHSfle32u a b s
  | .hMov32 a b => Sys2Proof.Machine.execHMov32 a b s
  | .hExt16s a => Sys2Proof.Machine.execHExt16s a s
  | .hExt16z a => Sys2Proof.Machine.execHExt16z a s
  | .hExt8s a => Sys2Proof.Machine.execHExt8s a s
  | .hExt8z a => Sys2Proof.Machine.execHExt8z a s
  | .hNop => Sys2Proof.Machine.execHNop s
  | .hJalr a => Sys2Proof.Machine.execHJalr a s
  | .hLoad32u a b n => Sys2Proof.Machine.execHLoad32u a b n s
  | .hStor32 a b n => Sys2Proof.Machine.execHStor32 a b n s
  | .hAdd32s a b d => Sys2Proof.Machine.execHAdd32s a b d s
  | .hImmch32s a m => Sys2Proof.Machine.execHImmch32s a m s
  | .hJal9 x => Sys2Proof.Machine.execHJal9 x s
  | .hJalA x => Sys2Proof.Machine.execHJalA x s
  | .hBnf x => Sys2Proof.Machine.execHBnf x s
  | .hBf x => Sys2Proof.Machine.execHBf x s
  | .hSched z => Sys2Proof.Machine.execHSched z s

end Sys2Proof.Machine
end

