-- ==== Sys2Proof/Machine/Step.lean ====
section
/-! DEFINITION. One step of the machine (10_state.md R31), and the placing of one instruction where a step fetches. -/

namespace Sys2Proof.Machine

open Sys2Proof

/-- One step: what the cycle finds first, else the instruction's own rule and the end of the cycle (R31). -/
def step (s : State) : Host.Outcome State Fault Refusal :=
  match front s with
  | .done o => o
  | .run i len => retire s len (exec i s)

/-- `s` with the instruction stored in TEXT at the pc, as a launch places a program (log 9): four bytes, and a `HALT_PC`
that would end the run here is taken away. -/
def State.withFetchWord (s : State) (nbits w : Nat) : State :=
  placeText s (tableBytes nbits w)

end Sys2Proof.Machine
end

