-- ==== Sys2Proof/Safety.lean ====
section
/-! DEFINITION. The terms the claims use: what a state of a run looks like, what an instruction leaves unchanged, the classes
of 00_scope.md R2, and when a data access is possible. -/

namespace Sys2Proof.Machine

open Sys2Proof

/-! ### A well-formed launch and the invariant of a run -/

/-- A launch the spec allows: TEXT is canonical and "inside `RAM`" and the start pc is even (R55, R241). -/
def launchOk (p : Params) : Bool :=
  Memory.wf p.text && p.text.all (fun c => inRam p c.1) && !p.resetPc.getLsbD 0

/-- An open slot: target and end are even and the pc is at one of the slot's two half words (R26, R30, R31). -/
def slotOk (s : State) : Bool :=
  match s.dslot with
  | none => true
  | some d =>
    !d.fin.getLsbD 0 && (match d.target with | none => true | some t => !t.getLsbD 0) &&
      (s.pc == d.fin - 4 || s.pc == d.fin - 2)

/-- What every state of a run satisfies: memory and special registers in canonical form, every stored byte in RAM and none
in TEXT (R46, R55), TEXT inside RAM (R55), an even pc (R26), a well-formed slot. -/
def State.inv (s : State) : Bool :=
  Memory.wf s.mem && sprWf s.spr && s.mem.all (fun c => inRam s.params c.1 && !inText s.params c.1) &&
    Memory.wf s.params.text && s.params.text.all (fun c => inRam s.params c.1) && !s.pc.getLsbD 0 && slotOk s

/-! ### What stays the same -/

def SameRegs (s t : State) : Prop := ∀ r : RegNo, t.readReg r = s.readReg r
/-- Every general register but `a`. -/
def SameRegsBut (a : RegNo) (s t : State) : Prop := ∀ r : RegNo, r ≠ a → t.readReg r = s.readReg r
/-- Every byte of memory. -/
def SameMemory (s t : State) : Prop := ∀ x : Word, t.byteAt x = s.byteAt x
/-- Every byte of memory but the `n` at `ea`. -/
def SameMemoryBut (ea : Word) (n : Nat) (s t : State) : Prop :=
  ∀ x : Word, x ∉ bytesAt ea n → t.byteAt x = s.byteAt x
def SameSpecials (s t : State) : Prop := ∀ n : SprNo, t.readSpr n = s.readSpr n
def SameFlags (s t : State) : Prop := t.flag = s.flag ∧ t.divflag = s.divflag
/-- The mode and the parameters. -/
def SameMode (s t : State) : Prop := t.mode = s.mode ∧ t.params = s.params
/-- The pc and the delay slot: the common step moves them after the instruction (R31). -/
def SameControl (s t : State) : Prop := t.pc = s.pc ∧ t.dslot = s.dslot

/-! ### The shapes of an instruction's effect, each with its frame -/

/-- What x[a] reads after `x[a] <- v`: with `R0_ZERO` register 0 reads 0 and the write is dropped (R8, R22). -/
def regValue (s : State) (a : RegNo) (v : Word) : Word :=
  if s.params.r0Zero = true ∧ a = 0 then 0 else v

/-- The instruction completes, writes `v` to x[a] and changes nothing else. -/
def RegResult (s : State) (a : RegNo) (v : Word) (o : Result) : Prop :=
  ∃ t, o = .next t ∧ t.readReg a = regValue s a v ∧ SameRegsBut a s t ∧ SameMemory s t ∧ SameSpecials s t ∧
    SameFlags s t ∧ SameMode s t ∧ SameControl s t ∧ t.draws = s.draws

/-- The instruction completes, writes `b` to the compare flag and changes nothing else. -/
def FlagResult (s : State) (b : Bool) (o : Result) : Prop :=
  ∃ t, o = .next t ∧ t.flag = b ∧ t.divflag = s.divflag ∧ SameRegs s t ∧ SameMemory s t ∧ SameSpecials s t ∧
    SameMode s t ∧ SameControl s t ∧ t.draws = s.draws

/-- The instruction completes, opens the slot `d` and changes nothing else. -/
def SlotResult (s : State) (d : Slot) (o : Result) : Prop :=
  ∃ t, o = .next t ∧ t.dslot = some d ∧ t.pc = s.pc ∧ SameRegs s t ∧ SameMemory s t ∧ SameSpecials s t ∧
    SameFlags s t ∧ SameMode s t ∧ t.draws = s.draws

/-- The instruction completes, opens the slot `d`, writes `link` to the link register and changes nothing else. -/
def LinkResult (s : State) (d : Slot) (link : Word) (o : Result) : Prop :=
  ∃ t, o = .next t ∧ t.dslot = some d ∧ t.readReg s.params.linkReg = regValue s s.params.linkReg link ∧
    SameRegsBut s.params.linkReg s t ∧ t.pc = s.pc ∧ SameMemory s t ∧ SameSpecials s t ∧ SameFlags s t ∧
    SameMode s t ∧ t.draws = s.draws

/-- The instruction completes, stores the bytes `bs` at `ea`, `ea + 1`, ... and changes nothing else. -/
def StoreResult (s : State) (ea : Word) (bs : List Byte) (o : Result) : Prop :=
  ∃ t, o = .next t ∧ (∀ k, k < bs.length → t.byteAt (ea + BitVec.ofNat 32 k) = bs[k]?) ∧
    SameMemoryBut ea bs.length s t ∧ SameRegs s t ∧ SameSpecials s t ∧ SameFlags s t ∧ SameMode s t ∧
    SameControl s t ∧ t.draws = s.draws

/-! ### When a data access is possible -/

/-- The `bs.length` bytes at `ea` are aligned, in RAM and hold `bs` (R44, R46, R47). -/
def Readable (s : State) (ea : Word) (bs : List Byte) : Prop :=
  ea.toNat % bs.length = 0 ∧
    ∀ k, k < bs.length → inRam s.params (ea + BitVec.ofNat 32 k).toNat = true ∧
      s.byteAt (ea + BitVec.ofNat 32 k) = bs[k]?

/-- The `n` bytes at `ea` are aligned, in RAM and outside TEXT (R45 to R47, R55). -/
def Writable (s : State) (ea : Word) (n : Nat) : Prop :=
  ea.toNat % n = 0 ∧
    ∀ k, k < n → inRam s.params (ea + BitVec.ofNat 32 k).toNat = true ∧
      inText s.params (ea + BitVec.ofNat 32 k).toNat = false

/-! ### Classes and groups of instructions -/

/-- The class of R2's table. -/
def insnClass : Instr → Nat
  | .lIllegal => 1
  | .lJ _ => 1
  | .lJal _ => 1
  | .lBnf _ => 1
  | .lBf _ => 1
  | .lLoad32u _ _ _ => 1
  | .lLoad16u _ _ _ => 1
  | .lLoad16s _ _ _ => 1
  | .lLoad8u _ _ _ => 1
  | .lLoad8s _ _ _ => 1
  | .lStor32 _ _ _ => 1
  | .lStor16 _ _ _ => 1
  | .lStor8 _ _ _ => 1
  | .lAddi32s _ _ _ => 1
  | .lSubi32s _ _ _ => 1
  | .lMuli32s _ _ _ => 2
  | .lXori16 _ _ _ => 3
  | .lImmlo16u _ _ => 1
  | .lImmhi16u _ _ => 1
  | .lSub32s _ _ _ => 1
  | .lShla32 _ _ _ _ => 1
  | .lShra32 _ _ _ _ => 1
  | .lShrl32 _ _ _ _ => 1
  | .lAnd32 _ _ _ => 1
  | .lOr32 _ _ _ => 1
  | .lXor32 _ _ _ => 1
  | .lMul32s _ _ _ => 2
  | .lMul32u _ _ _ => 2
  | .lDiv32s _ _ _ => 3
  | .lDiv32u _ _ _ => 3
  | .lDcbf _ _ => 5
  | .lDcbt _ _ => 5
  | .lDcbi _ _ => 5
  | .lDcia => 5
  | .lDcfa => 5
  | .lTlbia => 6
  | .lMtsr _ _ => 4
  | .lMfsr _ _ => 4
  | .hSfeq32 _ _ => 1
  | .hSfne32 _ _ => 1
  | .hSfgt32s _ _ => 1
  | .hSfge32s _ _ => 1
  | .hSflt32s _ _ => 1
  | .hSfle32s _ _ => 1
  | .hSfgt32u _ _ => 1
  | .hSfge32u _ _ => 1
  | .hSflt32u _ _ => 1
  | .hSfle32u _ _ => 1
  | .hMov32 _ _ => 2
  | .hExt16s _ => 2
  | .hExt16z _ => 2
  | .hExt8s _ => 2
  | .hExt8z _ => 2
  | .hNop => 1
  | .hJalr _ => 1
  | .hLoad32u _ _ _ => 2
  | .hStor32 _ _ _ => 2
  | .hAdd32s _ _ _ => 1
  | .hImmch32s _ _ => 2
  | .hJal9 _ => 2
  | .hJalA _ => 2
  | .hBnf _ => 2
  | .hBf _ => 2
  | .hSched _ => 3

/-- The class is implemented: `IMPL_CLASS2` and `IMPL_CLASS3` (R80). -/
def classOn (i : Instr) (s : State) : Prop :=
  (insnClass i = 2 → s.params.implClass2 = true) ∧ (insnClass i = 3 → s.params.implClass3 = true)

/-- The ten compares (R170). -/
def isCompare : Instr → Bool
  | .hSfeq32 _ _ | .hSfne32 _ _ | .hSfgt32s _ _ | .hSfge32s _ _ | .hSflt32s _ _ | .hSfle32s _ _ | .hSfgt32u _ _
  | .hSfge32u _ _ | .hSflt32u _ _ | .hSfle32u _ _ => true
  | _ => false

/-- The nine jumps and branches (R242): l.j, l.jal, l.bnf, l.bf, h.jalr, h.jal (both entries), h.bnf, h.bf. -/
def isTransfer : Instr → Bool
  | .lJ _ | .lJal _ | .lBnf _ | .lBf _ | .hJalr _ | .hJal9 _ | .hJalA _ | .hBnf _ | .hBf _ => true
  | _ => false

/-- The divisor of a division, where the instruction is one (R143). -/
def divisorOf (i : Instr) (s : State) : Option Word :=
  match i with
  | .lDiv32s _ _ c | .lDiv32u _ _ c => some (s.readReg c)
  | _ => none

/-- The effective address, the width in bytes and whether it is a store, of the ten memory instructions (R41, R110, R200, R201). -/
def accessOf (i : Instr) (s : State) : Option (Word × Nat × Bool) :=
  match i with
  | .lLoad32u _ b j => some (s.readReg b + j.signExtend 32, 4, false)
  | .lLoad16u _ b j => some (s.readReg b + j.signExtend 32, 2, false)
  | .lLoad16s _ b j => some (s.readReg b + j.signExtend 32, 2, false)
  | .lLoad8u _ b j => some (s.readReg b + j.signExtend 32, 1, false)
  | .lLoad8s _ b j => some (s.readReg b + j.signExtend 32, 1, false)
  | .lStor32 a _ j => some (s.readReg a + j.signExtend 32, 4, true)
  | .lStor16 a _ j => some (s.readReg a + j.signExtend 32, 2, true)
  | .lStor8 a _ j => some (s.readReg a + j.signExtend 32, 1, true)
  | .hLoad32u _ b n => some (s.readReg b + n.signExtend 32, 4, false)
  | .hStor32 a _ n => some (s.readReg a + n.signExtend 32, 4, true)
  | _ => none

end Sys2Proof.Machine
end

