-- ==== Sys2Proof/Certificates/Slice0/Obligations.lean ====
section
/-! DEFINITION. The statements for the provers. "derived" and "stated" are said in OBLIGATIONS.json; a docstring names the
rules of spec/ and, where a statement rests on a choice of the model, the log entry. -/

open Sys2Proof Sys2Proof.Machine

/-! ### Encoding -/

/-- No bit of an encoding is dropped: R63, R73 to R79. -/
def Obligations.DecodeOfEncodeIsTheInstruction : Prop :=
  ∀ i : Instr, i.wf = true → decode (encode i) = .ok i

/-- Every word has one meaning: what decodes is the encoding of what it decodes to. -/
def Obligations.EncodeOfDecodeIsTheWord : Prop :=
  ∀ (c : Code) (i : Instr), decode c = .ok i → encode i = c ∧ i.wf = true

/-- R80's list of unassigned encodings, for words whose top bits give them that length (R61). -/
def Obligations.UnassignedEncodingsAreThoseOfTheMap : Prop :=
  (∀ w : Word, w.extractLsb' 30 2 = 0 →
    (decode (.word w) = .error .unassigned ↔
      (0x2D ≤ (w.extractLsb' 24 8).toNat ∧ (w.extractLsb' 24 8).toNat ≤ 0x2F) ∨
      (0x31 ≤ (w.extractLsb' 24 8).toNat ∧ (w.extractLsb' 24 8).toNat ≤ 0x3F) ∨
      ((w.extractLsb' 24 8).toNat = 0x2C ∧ 0xB ≤ (w.extractLsb' 8 4).toNat) ∨
      ((w.extractLsb' 24 8).toNat = 0x30 ∧ 0x8 ≤ (w.extractLsb' 8 4).toNat))) ∧
  (∀ h : Half, h.extractLsb' 14 2 ≠ 0 →
    (decode (.half h) = .error .unassigned ↔
      (0x4C ≤ (h.extractLsb' 8 8).toNat ∧ (h.extractLsb' 8 8).toNat ≤ 0x4F) ∨
      (0xD0 ≤ (h.extractLsb' 8 8).toNat ∧ (h.extractLsb' 8 8).toNat ≤ 0xEF) ∨
      ((h.extractLsb' 8 8).toNat = 0x4B ∧ 0x6 ≤ (h.extractLsb' 0 3).toNat)))

/-- R81's list of reserved fields: exactly these bits, when set, make the decoder refuse. -/
def Obligations.ReservedFieldsAreThoseOfTheFigures : Prop :=
  (∀ w : Word,
    (decode (.word w) = .error .reservedField ↔
      (((w.extractLsb' 24 8).toNat = 0x2A ∨ (w.extractLsb' 24 8).toNat = 0x2B) ∧ w.extractLsb' 16 4 ≠ 0) ∨
      ((w.extractLsb' 24 8).toNat = 0x2C ∧ w.extractLsb' 0 8 ≠ 0 ∧
        ((w.extractLsb' 8 4).toNat = 0 ∨ (4 ≤ (w.extractLsb' 8 4).toNat ∧ (w.extractLsb' 8 4).toNat ≤ 10))) ∨
      ((w.extractLsb' 24 8).toNat = 0x2C ∧ w.extractLsb' 0 3 ≠ 0 ∧
        (1 ≤ (w.extractLsb' 8 4).toNat ∧ (w.extractLsb' 8 4).toNat ≤ 3)) ∨
      ((w.extractLsb' 24 8).toNat = 0x30 ∧ (w.extractLsb' 12 12 ≠ 0 ∨ w.extractLsb' 0 8 ≠ 0) ∧
        (3 ≤ (w.extractLsb' 8 4).toNat ∧ (w.extractLsb' 8 4).toNat ≤ 5)))) ∧
  (∀ h : Half,
    (decode (.half h) = .error .reservedField ↔
      (h.extractLsb' 8 8).toNat = 0x4B ∧
        ((h.extractLsb' 3 1 ≠ 0 ∧ ((h.extractLsb' 0 3).toNat ≤ 3 ∨ (h.extractLsb' 0 3).toNat = 5)) ∨
          (h.extractLsb' 3 5 ≠ 0 ∧ (h.extractLsb' 0 3).toNat = 4))))

/-- Words of 95_test_vectors.md section 3.1, one or more per family. -/
def Obligations.WrittenOutWordsDecode : Prop :=
  decode (.word 0x00000000) = .ok .lIllegal ∧ decode (.word 0x07FFFFFE) = .ok (.lJal 0x3FFFFFE) ∧
    decode (.word 0x11FE0000) = .ok (.lLoad32u 15 14 0x10000) ∧ decode (.word 0x2312FFFF) = .ok (.lAddi32s 1 2 0x3FFFF) ∧
    decode (.word 0x2C1232F8) = .ok (.lShra32 1 2 3 31) ∧ decode (.word 0x30712634) = .ok (.lMtsr 0x1234 7) ∧
    decode (.half 0x49F0) = .ok (.hSfle32u 15 0) ∧ decode (.half 0x4B95) = .ok (.hJalr 9) ∧
    decode (.half 0x7312) = .ok (.hAdd32s 1 2 3) ∧ decode (.half 0x8850) = .ok (.hImmch32s 5 0x80)

/-! ### The execution cycle -/

/-- When what stands at the pc decodes to `i`, and the run is not over and the slot not overrun, the step is `exec i`
followed by the end of the cycle (R31). -/
def Obligations.StepRunsTheDecodedInstruction : Prop :=
  ∀ (s : State) (c : Code) (i : Instr), s.runOver = false → fetch s s.pc = .ok c → slotOverrun s c.len = false →
    decode c = .ok i →
    step s = match exec i s with
      | .next t => .next (advance s c.len t)
      | .fault f => .fault f
      | .refused r => .refused r

/-- The end of the cycle as R31 writes it: pc and slot after an instruction that left `t`; everything else is `t`'s. -/
def Obligations.CycleMovesPcAndDelaySlot : Prop :=
  ∀ (s t : State) (c : Code) (i : Instr), s.runOver = false → fetch s s.pc = .ok c → slotOverrun s c.len = false →
    decode c = .ok i → exec i s = .next t →
    ∃ u, step s = .next u ∧
      (s.dslot = none → u.pc = s.pc + c.len ∧ u.dslot = t.dslot) ∧
      (∀ d, s.dslot = some d → s.pc + c.len = d.fin → u.dslot = none ∧ u.pc = d.target.getD d.fin) ∧
      (∀ d, s.dslot = some d → s.pc + c.len ≠ d.fin → u.dslot = some d ∧ u.pc = s.pc + c.len) ∧
      u.regs = t.regs ∧ u.flag = t.flag ∧ u.divflag = t.divflag ∧ u.mode = t.mode ∧ u.spr = t.spr ∧ u.mem = t.mem ∧
      u.draws = t.draws ∧ u.params = t.params

/-- "with a delay of one 32 bit or two 16 bit instructions" (R30, R31, R242): after a taken jump or branch, one completed
32-bit instruction, or two completed 16-bit ones, and control is at the target. -/
def Obligations.TakenTransferReachesTargetAfterFourBytes : Prop :=
  ∀ (s u : State) (target fin : Word), s.dslot = none → s.runOver = false → step s = .next u →
    u.dslot = some ⟨some target, fin⟩ →
    fin = u.pc + 4 ∧
    (∀ (w : Word) (i : Instr) (v : State), fetch u u.pc = .ok (.word w) → decode (.word w) = .ok i →
      exec i u = .next v → ∃ z, step u = .next z ∧ z.pc = target ∧ z.dslot = none) ∧
    (∀ (h h' : Half) (i i' : Instr) (v v' u' : State), fetch u u.pc = .ok (.half h) → decode (.half h) = .ok i →
      exec i u = .next v → step u = .next u' → fetch u' u'.pc = .ok (.half h') → decode (.half h') = .ok i' →
      exec i' u' = .next v' → ∃ z, step u' = .next z ∧ z.pc = target ∧ z.dslot = none)

/-- FetchHalf and the two halves of a 32-bit instruction (R58; with `INSN32_ALIGN` = 4 at a multiple of 4, R48). -/
def Obligations.FetchReadsTextBigEndian : Prop :=
  ∀ (s : State) (a : Word) (b0 b1 : Byte), a.getLsbD 0 = false → lookupKey a.toNat s.params.text = some b0 →
    lookupKey (a + 1).toNat s.params.text = some b1 →
    fetchHalf s a = .ok (b0 ++ b1) ∧
    ((b0 ++ b1).extractLsb' 14 2 ≠ 0 → fetch s a = .ok (.half (b0 ++ b1))) ∧
    (∀ b2 b3 : Byte, (b0 ++ b1).extractLsb' 14 2 = 0 → (s.params.insn32Align = .two ∨ a.getLsbD 1 = false) →
      lookupKey (a + 2).toNat s.params.text = some b2 → lookupKey (a + 3).toNat s.params.text = some b3 →
      fetch s a = .ok (.word (b0 ++ b1 ++ b2 ++ b3)))

/-- Items 1 to 4 of R227: odd pc; first half outside TEXT; a 32-bit instruction at 2 modulo 4; second half outside TEXT. -/
def Obligations.FetchRefusesInOrder : Prop :=
  ∀ s : State, s.runOver = false →
    (s.pc.getLsbD 0 = true → step s = .refused .misalignedFetch) ∧
    (s.pc.getLsbD 0 = false →
      (lookupKey s.pc.toNat s.params.text = none ∨ lookupKey (s.pc + 1).toNat s.params.text = none) →
      step s = .refused .fetchOutsideText) ∧
    (∀ h0, s.pc.getLsbD 0 = false → fetchHalf s s.pc = .ok h0 → h0.extractLsb' 14 2 = 0 →
      s.params.insn32Align = .four → s.pc.getLsbD 1 = true → step s = .refused .misalignedFetch) ∧
    (∀ h0, s.pc.getLsbD 0 = false → fetchHalf s s.pc = .ok h0 → h0.extractLsb' 14 2 = 0 →
      (s.params.insn32Align = .two ∨ s.pc.getLsbD 1 = false) →
      (lookupKey (s.pc + 2).toNat s.params.text = none ∨ lookupKey (s.pc + 3).toNat s.params.text = none) →
      step s = .refused .fetchOutsideText)

/-- R31: "if e - next (mod 2^32) > 2: refuse(DelaySlotOverrun)"; so a 32-bit instruction in a slot's second half is refused. -/
def Obligations.OverrunningTheDelaySlotIsRefused : Prop :=
  ∀ (s : State) (c : Code) (d : Slot), s.dslot = some d → fetch s s.pc = .ok c →
    ((d.fin - (s.pc + c.len)).toNat > 2 → step s = .refused .delaySlotOverrun) ∧
    (∀ w, c = .word w → s.pc = d.fin - 2 → step s = .refused .delaySlotOverrun)

/-- Items 6 and 7 of R227: an unassigned encoding raises IllegalInstruction with pc, word and the handler's address (R80,
R221, R222); a reserved bit is refused (R81). -/
def Obligations.UndecodedWordsStop : Prop :=
  ∀ (s : State) (c : Code), s.runOver = false → fetch s s.pc = .ok c → slotOverrun s c.len = false →
    (decode c = .error .unassigned → step s = .fault (.illegalInstruction s.pc c s.params.illegalVector)) ∧
    (decode c = .error .reservedField → step s = .refused .reservedFieldNonZero)

/-- R12: the run is over exactly at `HALT_PC` with no slot open. That the step then answers the same state, and that a
launch may name no `HALT_PC`, are the model's choices (log 10). -/
def Obligations.RunOverStays : Prop :=
  ∀ s : State, (s.runOver = true ↔ s.params.haltPc = some s.pc ∧ s.dslot = none) ∧
    (s.params.haltPc = some s.pc → s.dslot = none → step s = .next s)

/-- R30, R226: a jump or branch while a delay slot is open, of a class that is implemented. -/
def Obligations.NoTransferInDelaySlot : Prop :=
  ∀ (i : Instr) (s : State) (d : Slot), isTransfer i = true → s.dslot = some d → classOn i s →
    exec i s = .refused .controlTransferInDelaySlot

/-! ### Invariants and whole-machine rules -/

/-- Canonical memory and special registers, stores inside RAM and outside TEXT, an even pc, a well-formed slot: kept by
every step from every state. -/
def Obligations.StepKeepsInv : Prop :=
  ∀ s t : State, s.inv = true → step s = .next t → t.inv = true

/-- Every launch the spec allows starts in the invariant, the reset state among them. -/
def Obligations.LaunchStatesHaveInv : Prop :=
  (∀ p : Params, launchOk p = true → (State.resetWith p).inv = true) ∧ State.reset.inv = true

/-- R32: the mode is constant over a run; and so is every parameter (R5, R55). -/
def Obligations.StepKeepsModeAndParameters : Prop :=
  ∀ s t : State, step s = .next t → t.mode = s.mode ∧ t.params = s.params

/-- R27: "No other instruction reads or writes it": only the ten compares write the flag. -/
def Obligations.OnlyComparesWriteTheFlag : Prop :=
  ∀ (i : Instr) (s t : State), exec i s = .next t → isCompare i = false → t.flag = s.flag

/-- R28: l.div32s and l.div32u set the divisor flag on a zero divisor; otherwise, and by anything else, it is unchanged. -/
def Obligations.OnlyZeroDivisorsSetTheDivisorFlag : Prop :=
  ∀ (i : Instr) (s t : State), exec i s = .next t →
    t.divflag = if divisorOf i s = some 0 then true else s.divflag

/-- R41: the four stores change the bytes at their address and width, and no other instruction changes memory. -/
def Obligations.OnlyStoresChangeMemory : Prop :=
  ∀ (i : Instr) (s t : State), exec i s = .next t →
    (∀ ea n, accessOf i s = some (ea, n, true) → SameMemoryBut ea n s t) ∧
    ((∀ ea n, accessOf i s ≠ some (ea, n, true)) → SameMemory s t)

/-- 10_state.md section 1: special registers are written by l.mtsr alone, and it writes one. -/
def Obligations.OnlyMtsrWritesSpecialRegisters : Prop :=
  ∀ (i : Instr) (s t : State), exec i s = .next t →
    (∀ n a, i = .lMtsr n a → ∀ m : SprNo, m ≠ n → t.readSpr m = s.readSpr m) ∧
    ((∀ n a, i ≠ .lMtsr n a) → SameSpecials s t)

/-- R55: the program text "never changes during a run". -/
def Obligations.TextBytesNeverChange : Prop :=
  ∀ (s t : State) (x : Word), step s = .next t → inText s.params x.toNat = true →
    t.byteAt x = s.byteAt x ∧ inText t.params x.toNat = true

/-- R31: the instruction's own rule leaves the pc to the cycle, and only jumps and branches open a slot. -/
def Obligations.OnlyTransfersOpenASlot : Prop :=
  ∀ (i : Instr) (s t : State), exec i s = .next t →
    t.pc = s.pc ∧ (isTransfer i = false → t.dslot = s.dslot)

/-- R32, R228, R232: in User mode no step changes a special register, and the mode stays User. -/
def Obligations.UserModeStepKeepsSpecialRegisters : Prop :=
  ∀ s t : State, s.mode = .user → step s = .next t → SameSpecials s t ∧ t.mode = .user

/-! ### 32-bit control (40_l_control.md) -/

/-- R101: the all-zero word is l.illegal, which raises in both modes and in a slot, with nothing written. -/
def Obligations.IllegalAlwaysRaises : Prop :=
  decode (.word 0) = .ok .lIllegal ∧
    ∀ s : State, exec .lIllegal s = .fault (.illegalInstruction s.pc (.word 0) s.params.illegalVector)

/-- R102: the target is D + sext_32(X ++ 0b00) with D = pc + 4; no register is written, the link register neither. -/
def Obligations.JumpOpensSlotAtTarget : Prop :=
  ∀ (s : State) (x : BitVec 26), encode (.lJ x) = .word (0x0#6 ++ x) ∧
    (s.dslot = none → s.pc.getLsbD 0 = false →
      SlotResult s ⟨some (s.pc + 4 + (x ++ 0#2).signExtend 32), s.pc + 4 + 4⟩ (exec (.lJ x) s)) ∧
    (s.dslot ≠ none → exec (.lJ x) s = .refused .controlTransferInDelaySlot)

/-- R103: l.jal also puts D + 4 in the link register. -/
def Obligations.JumpAndLinkWritesReturnAddress : Prop :=
  ∀ (s : State) (x : BitVec 26), encode (.lJal x) = .word (0x1#6 ++ x) ∧
    (s.dslot = none → s.pc.getLsbD 0 = false →
      LinkResult s ⟨some (s.pc + 4 + (x ++ 0#2).signExtend 32), s.pc + 4 + 4⟩ (s.pc + 4 + 4) (exec (.lJal x) s)) ∧
    (s.dslot ≠ none → exec (.lJal x) s = .refused .controlTransferInDelaySlot)

/-- R104, R105: l.bnf is taken if the flag is clear, l.bf if it is set; the slot opens either way. -/
def Obligations.BranchesReadTheFlag : Prop :=
  ∀ (s : State) (x : BitVec 26), s.dslot = none → s.pc.getLsbD 0 = false →
    SlotResult s ⟨if s.flag = false then some (s.pc + 4 + (x ++ 0#2).signExtend 32) else none, s.pc + 4 + 4⟩
      (exec (.lBnf x) s) ∧
    SlotResult s ⟨if s.flag = true then some (s.pc + 4 + (x ++ 0#2).signExtend 32) else none, s.pc + 4 + 4⟩
      (exec (.lBf x) s)

/-! ### 16-bit jumps and branches (46, 47) -/

/-- R204, R205: both h.jal encodings; D = pc + 2; refused in a slot; with `IMPL_CLASS2` false the exception. -/
def Obligations.ShortJumpAndLinkWritesReturnAddress : Prop :=
  ∀ (s : State) (x : BitVec 12), encode (.hJal9 x) = .half (0x9#4 ++ x) ∧ encode (.hJalA x) = .half (0xA#4 ++ x) ∧
    ∀ i, i = .hJal9 x ∨ i = .hJalA x →
      (s.params.implClass2 = true → s.dslot = none → s.pc.getLsbD 0 = false →
        LinkResult s ⟨some (s.pc + 2 + (x ++ 0#2).signExtend 32), s.pc + 2 + 4⟩ (s.pc + 2 + 4) (exec i s)) ∧
      (s.params.implClass2 = true → s.dslot ≠ none → exec i s = .refused .controlTransferInDelaySlot) ∧
      (s.params.implClass2 = false → exec i s = .fault (.illegalInstruction s.pc (encode i) s.params.illegalVector))

/-- R195: the target is the old x[A]; an odd one is refused and nothing is written. -/
def Obligations.JumpRegisterLinksAndJumps : Prop :=
  ∀ (s : State) (a : RegNo), s.dslot = none →
    ((s.readReg a).getLsbD 0 = false →
      LinkResult s ⟨some (s.readReg a), s.pc + 2 + 4⟩ (s.pc + 2 + 4) (exec (.hJalr a) s)) ∧
    ((s.readReg a).getLsbD 0 = true → exec (.hJalr a) s = .refused .oddTarget)

/-- R206, R207, R209. -/
def Obligations.ShortBranchesReadTheFlag : Prop :=
  ∀ (s : State) (x : BitVec 12), s.params.implClass2 = true → s.dslot = none → s.pc.getLsbD 0 = false →
    SlotResult s ⟨if s.flag = false then some (s.pc + 2 + (x ++ 0#2).signExtend 32) else none, s.pc + 2 + 4⟩
      (exec (.hBnf x) s) ∧
    SlotResult s ⟨if s.flag = true then some (s.pc + 2 + (x ++ 0#2).signExtend 32) else none, s.pc + 2 + 4⟩
      (exec (.hBf x) s)

/-! ### Loads and stores (41, 47) -/

/-- R111 to R115: base + sign-extended 17-bit offset; big-endian datum, zero- or sign-extended. -/
def Obligations.LoadsExtendTheDatum : Prop :=
  ∀ (s : State) (a b : RegNo) (j : BitVec 17) (b0 b1 b2 b3 : Byte),
    (let word := fun op : BitVec 7 => Code.word (op ++ j.extractLsb' 16 1 ++ a ++ b ++ j.extractLsb' 0 16)
     encode (.lLoad32u a b j) = word 0x8 ∧ encode (.lLoad16u a b j) = word 0x9 ∧ encode (.lLoad16s a b j) = word 0xA ∧
      encode (.lLoad8u a b j) = word 0xB ∧ encode (.lLoad8s a b j) = word 0xC) ∧
    (Readable s (s.readReg b + j.signExtend 32) [b0, b1, b2, b3] →
      RegResult s a (b0 ++ b1 ++ b2 ++ b3) (exec (.lLoad32u a b j) s)) ∧
    (Readable s (s.readReg b + j.signExtend 32) [b0, b1] →
      RegResult s a ((b0 ++ b1).setWidth 32) (exec (.lLoad16u a b j) s) ∧
      RegResult s a ((b0 ++ b1).signExtend 32) (exec (.lLoad16s a b j) s)) ∧
    (Readable s (s.readReg b + j.signExtend 32) [b0] →
      RegResult s a (b0.setWidth 32) (exec (.lLoad8u a b j) s) ∧
      RegResult s a (b0.signExtend 32) (exec (.lLoad8s a b j) s))

/-- R200: the 4-bit offset counts bytes. -/
def Obligations.ShortLoadReadsAWord : Prop :=
  ∀ (s : State) (a b : RegNo) (n : BitVec 4) (b0 b1 b2 b3 : Byte), s.params.implClass2 = true →
    Readable s (s.readReg b + n.signExtend 32) [b0, b1, b2, b3] →
      RegResult s a (b0 ++ b1 ++ b2 ++ b3) (exec (.hLoad32u a b n) s)

/-- R116 to R118, R45: the stored bytes, most significant first; every other byte is unchanged. -/
def Obligations.StoresWriteLowOrderBytes : Prop :=
  ∀ (s : State) (a b : RegNo) (j : BitVec 17),
    (let word := fun op : BitVec 7 => Code.word (op ++ j.extractLsb' 16 1 ++ a ++ b ++ j.extractLsb' 0 16)
     encode (.lStor32 a b j) = word 0xD ∧ encode (.lStor16 a b j) = word 0xE ∧ encode (.lStor8 a b j) = word 0xF) ∧
    (Writable s (s.readReg a + j.signExtend 32) 4 →
      StoreResult s (s.readReg a + j.signExtend 32) [(s.readReg b).extractLsb' 24 8, (s.readReg b).extractLsb' 16 8,
        (s.readReg b).extractLsb' 8 8, (s.readReg b).extractLsb' 0 8] (exec (.lStor32 a b j) s)) ∧
    (Writable s (s.readReg a + j.signExtend 32) 2 →
      StoreResult s (s.readReg a + j.signExtend 32) [(s.readReg b).extractLsb' 8 8, (s.readReg b).extractLsb' 0 8]
        (exec (.lStor16 a b j) s)) ∧
    (Writable s (s.readReg a + j.signExtend 32) 1 →
      StoreResult s (s.readReg a + j.signExtend 32) [(s.readReg b).extractLsb' 0 8] (exec (.lStor8 a b j) s))

/-- R201. -/
def Obligations.ShortStoreWritesAWord : Prop :=
  ∀ (s : State) (a b : RegNo) (n : BitVec 4), s.params.implClass2 = true →
    Writable s (s.readReg a + n.signExtend 32) 4 →
      StoreResult s (s.readReg a + n.signExtend 32) [(s.readReg b).extractLsb' 24 8, (s.readReg b).extractLsb' 16 8,
        (s.readReg b).extractLsb' 8 8, (s.readReg b).extractLsb' 0 8] (exec (.hStor32 a b n) s)

/-- R44 to R47, R55, R227 item 15: the four ways a load or store stops, in order, for all ten memory instructions. -/
def Obligations.DataAccessStopsInOrder : Prop :=
  ∀ (i : Instr) (s : State) (ea : Word) (n : Nat) (store : Bool), accessOf i s = some (ea, n, store) → classOn i s →
    (ea.toNat % n ≠ 0 → exec i s = .fault .misaligned) ∧
    (ea.toNat % n = 0 → (∃ k, k < n ∧ inRam s.params (ea + BitVec.ofNat 32 k).toNat = false) →
      exec i s = .refused .outsideRam) ∧
    (store = true → ea.toNat % n = 0 → (∀ k, k < n → inRam s.params (ea + BitVec.ofNat 32 k).toNat = true) →
      (∃ k, k < n ∧ inText s.params (ea + BitVec.ofNat 32 k).toNat = true) → exec i s = .refused .storeToText) ∧
    (store = false → ea.toNat % n = 0 → (∀ k, k < n → inRam s.params (ea + BitVec.ofNat 32 k).toNat = true) →
      (∃ k, k < n ∧ s.byteAt (ea + BitVec.ofNat 32 k) = none) → exec i s = .fault .unwrittenRead)

/-- R53 (a), R45: a load after a store to the same bytes sees the stored value, and a byte load sees the byte. -/
def Obligations.LoadAfterStoreSeesTheValue : Prop :=
  ∀ (s t : State) (a b c : RegNo) (j : BitVec 17),
    (exec (.lStor32 a b j) s = .next t →
      RegResult t c (s.readReg b) (exec (.lLoad32u c a j) t) ∧
      ∀ k, k < 4 → memRead8 t (s.readReg a + j.signExtend 32 + BitVec.ofNat 32 k) =
        .ok ((s.readReg b).extractLsb' (24 - 8 * k) 8)) ∧
    (exec (.lStor16 a b j) s = .next t →
      RegResult t c (((s.readReg b).extractLsb' 0 16).setWidth 32) (exec (.lLoad16u c a j) t)) ∧
    (exec (.lStor8 a b j) s = .next t →
      RegResult t c (((s.readReg b).extractLsb' 0 8).setWidth 32) (exec (.lLoad8u c a j) t))

/-! ### Immediate and register arithmetic (42, 43, 45, 46, 47) -/

/-- R121, R122: modulo 2^32, no flag. -/
def Obligations.AddAndSubtractImmediate : Prop :=
  ∀ (s : State) (a b : RegNo) (imm : BitVec 18),
    encode (.lAddi32s a b imm) = .word (0x8#6 ++ imm.extractLsb' 16 2 ++ a ++ b ++ imm.extractLsb' 0 16) ∧
    encode (.lSubi32s a b imm) = .word (0x9#6 ++ imm.extractLsb' 16 2 ++ a ++ b ++ imm.extractLsb' 0 16) ∧
    RegResult s a (s.readReg b + imm.signExtend 32) (exec (.lAddi32s a b imm) s) ∧
    RegResult s a (s.readReg b - imm.signExtend 32) (exec (.lSubi32s a b imm) s)

/-- R123, with `MULI_EXT` either way, and with `IMPL_CLASS2` false. -/
def Obligations.MultiplyImmediateTruncates : Prop :=
  ∀ (s : State) (a b : RegNo) (imm : BitVec 16),
    encode (.lMuli32s a b imm) = .word (0x28#8 ++ a ++ b ++ imm) ∧
    (s.params.implClass2 = true → s.params.muliExt = .sign →
      RegResult s a (BitVec.ofInt 32 ((s.readReg b).toInt * imm.toInt)) (exec (.lMuli32s a b imm) s)) ∧
    (s.params.implClass2 = true → s.params.muliExt = .zero →
      RegResult s a (BitVec.ofInt 32 ((s.readReg b).toInt * (imm.toNat : Int))) (exec (.lMuli32s a b imm) s)) ∧
    (s.params.implClass2 = false →
      exec (.lMuli32s a b imm) s = .fault (.illegalInstruction s.pc (.word (0x28#8 ++ a ++ b ++ imm))
        s.params.illegalVector))

/-- R124, with `XORI16_EXT` either way: zero extension confines the operation to the low half word. -/
def Obligations.XorImmediateHalfWord : Prop :=
  ∀ (s : State) (a b : RegNo) (imm : BitVec 16),
    encode (.lXori16 a b imm) = .word (0x29#8 ++ a ++ b ++ imm) ∧
    (s.params.implClass3 = true → s.params.xori16Ext = .zero →
      RegResult s a (s.readReg b ^^^ imm.setWidth 32) (exec (.lXori16 a b imm) s) ∧
      s.readReg b ^^^ imm.setWidth 32 = (s.readReg b).extractLsb' 16 16 ++ ((s.readReg b).extractLsb' 0 16 ^^^ imm)) ∧
    (s.params.implClass3 = true → s.params.xori16Ext = .sign →
      RegResult s a (s.readReg b ^^^ imm.signExtend 32) (exec (.lXori16 a b imm) s)) ∧
    (s.params.implClass3 = false →
      exec (.lXori16 a b imm) s = .fault (.illegalInstruction s.pc (.word (0x29#8 ++ a ++ b ++ imm))
        s.params.illegalVector))

/-- R125, R126, R247: each half is written and the other kept, so the pair builds any constant in either order. -/
def Obligations.HalfWordImmediatesBuildConstants : Prop :=
  ∀ (s : State) (a : RegNo) (lo hi : BitVec 16),
    RegResult s a ((s.readReg a).extractLsb' 16 16 ++ lo) (exec (.lImmlo16u a lo) s) ∧
    RegResult s a (hi ++ (s.readReg a).extractLsb' 0 16) (exec (.lImmhi16u a hi) s) ∧
    (∀ t, exec (.lImmlo16u a lo) s = .next t → RegResult t a (hi ++ lo) (exec (.lImmhi16u a hi) t)) ∧
    (∀ t, exec (.lImmhi16u a hi) s = .next t → RegResult t a (hi ++ lo) (exec (.lImmlo16u a lo) t))

/-- R135 to R138, modulo 2^32 (R130); that every register holds a value is the model's choice (log 2). -/
def Obligations.SubtractAndLogic : Prop :=
  ∀ (s : State) (a b c : RegNo),
    (let word := fun op : BitVec 4 => Code.word (0x2C#8 ++ a ++ b ++ c ++ op ++ 0#8)
     encode (.lSub32s a b c) = word 0x0 ∧ encode (.lAnd32 a b c) = word 0x4 ∧ encode (.lOr32 a b c) = word 0x5 ∧
      encode (.lXor32 a b c) = word 0x6) ∧
    RegResult s a (s.readReg b - s.readReg c) (exec (.lSub32s a b c) s) ∧
    RegResult s a (s.readReg b &&& s.readReg c) (exec (.lAnd32 a b c) s) ∧
    RegResult s a (s.readReg b ||| s.readReg c) (exec (.lOr32 a b c) s) ∧
    RegResult s a (s.readReg b ^^^ s.readReg c) (exec (.lXor32 a b c) s)

/-- R132 to R134, bit by bit and as integers: the count is L OR x[C][4:0]. -/
def Obligations.ShiftsByTheCombinedCount : Prop :=
  ∀ (s : State) (a b c : RegNo) (l : BitVec 5) (n : Nat), n = (l ||| (s.readReg c).extractLsb' 0 5).toNat →
    (let word := fun op : BitVec 4 => Code.word (0x2C#8 ++ a ++ b ++ c ++ op ++ l ++ 0#3)
     encode (.lShla32 a b c l) = word 0x1 ∧ encode (.lShra32 a b c l) = word 0x2 ∧ encode (.lShrl32 a b c l) = word 0x3) ∧
    (∃ v, RegResult s a v (exec (.lShla32 a b c l) s) ∧
      ∀ k, k < 32 → v.getLsbD k = if k < n then false else (s.readReg b).getLsbD (k - n)) ∧
    (∃ v, RegResult s a v (exec (.lShra32 a b c l) s) ∧
      (∀ k, k < 32 → v.getLsbD k = if k + n < 32 then (s.readReg b).getLsbD (k + n) else (s.readReg b).msb) ∧
      v.toInt = (s.readReg b).toInt.fdiv (2 ^ n)) ∧
    (∃ v, RegResult s a v (exec (.lShrl32 a b c l) s) ∧
      (∀ k, k < 32 → v.getLsbD k = if k + n < 32 then (s.readReg b).getLsbD (k + n) else false) ∧
      v.toNat = (s.readReg b).toNat / 2 ^ n)

/-- R139, R140, R131: the low 32 bits of the exact product, the same function signed and unsigned; with `IMPL_CLASS2`
false the exception. -/
def Obligations.MultipliesAgree : Prop :=
  ∀ (s : State) (a b c : RegNo),
    encode (.lMul32s a b c) = .word (0x2C#8 ++ a ++ b ++ c ++ 0x7#4 ++ 0#8) ∧
    encode (.lMul32u a b c) = .word (0x2C#8 ++ a ++ b ++ c ++ 0x8#4 ++ 0#8) ∧
    (s.params.implClass2 = true →
      RegResult s a (BitVec.ofInt 32 ((s.readReg b).toInt * (s.readReg c).toInt)) (exec (.lMul32s a b c) s) ∧
      RegResult s a (BitVec.ofNat 32 ((s.readReg b).toNat * (s.readReg c).toNat)) (exec (.lMul32u a b c) s) ∧
      exec (.lMul32s a b c) s = exec (.lMul32u a b c) s) ∧
    (s.params.implClass2 = false → ∀ i, i = .lMul32s a b c ∨ i = .lMul32u a b c →
      exec i s = .fault (.illegalInstruction s.pc (encode i) s.params.illegalVector))

/-- R143, the whole table: ordinary quotients, -2^31 / -1, a zero divisor. The value of `draw_32()` is free (log 12). -/
def Obligations.DivisionFollowsTheTable : Prop :=
  ∀ (s : State) (a b c : RegNo),
    encode (.lDiv32s a b c) = .word (0x2C#8 ++ a ++ b ++ c ++ 0x9#4 ++ 0#8) ∧
    encode (.lDiv32u a b c) = .word (0x2C#8 ++ a ++ b ++ c ++ 0xA#4 ++ 0#8) ∧
    (s.params.implClass3 = false → ∀ i, i = .lDiv32s a b c ∨ i = .lDiv32u a b c →
      exec i s = .fault (.illegalInstruction s.pc (encode i) s.params.illegalVector)) ∧
    (s.params.implClass3 = true →
      (s.readReg c ≠ 0 → ∃ v, RegResult s a v (exec (.lDiv32u a b c) s) ∧
        v.toNat = (s.readReg b).toNat / (s.readReg c).toNat) ∧
      (s.readReg c ≠ 0 → ¬ (s.readReg b = 0x80000000 ∧ s.readReg c = 0xFFFFFFFF) →
        ∃ v, RegResult s a v (exec (.lDiv32s a b c) s) ∧
          v.toInt = (s.readReg b).toInt.tdiv (s.readReg c).toInt) ∧
      (s.readReg b = 0x80000000 → s.readReg c = 0xFFFFFFFF →
        ∃ t, exec (.lDiv32s a b c) s = .next t ∧ t.readReg a = regValue s a (Config.draw32 s.draws) ∧
          SameRegsBut a s t ∧ SameMemory s t ∧ SameSpecials s t ∧ SameFlags s t ∧ SameMode s t ∧ SameControl s t) ∧
      (s.readReg c = 0 → ∀ i, i = .lDiv32s a b c ∨ i = .lDiv32u a b c →
        ∃ t, exec i s = .next t ∧ t.readReg a = regValue s a (Config.draw32 s.draws) ∧ t.divflag = true ∧
          t.flag = s.flag ∧ SameRegsBut a s t ∧ SameMemory s t ∧ SameSpecials s t ∧ SameMode s t ∧ SameControl s t))

/-- R171 to R180, the first operand x[A]: the relation in the integers. -/
def Obligations.ComparesWriteTheRelation : Prop :=
  ∀ (s : State) (a b : RegNo),
    (let half := fun op : BitVec 8 => Code.half (op ++ a ++ b)
     encode (.hSfeq32 a b) = half 0x40 ∧ encode (.hSfne32 a b) = half 0x41 ∧ encode (.hSfgt32s a b) = half 0x42 ∧
      encode (.hSfge32s a b) = half 0x43 ∧ encode (.hSflt32s a b) = half 0x44 ∧ encode (.hSfle32s a b) = half 0x45 ∧
      encode (.hSfgt32u a b) = half 0x46 ∧ encode (.hSfge32u a b) = half 0x47 ∧ encode (.hSflt32u a b) = half 0x48 ∧
      encode (.hSfle32u a b) = half 0x49) ∧
    FlagResult s (decide (s.readReg a = s.readReg b)) (exec (.hSfeq32 a b) s) ∧
    FlagResult s (decide (s.readReg a ≠ s.readReg b)) (exec (.hSfne32 a b) s) ∧
    FlagResult s (decide ((s.readReg a).toInt > (s.readReg b).toInt)) (exec (.hSfgt32s a b) s) ∧
    FlagResult s (decide ((s.readReg a).toInt ≥ (s.readReg b).toInt)) (exec (.hSfge32s a b) s) ∧
    FlagResult s (decide ((s.readReg a).toInt < (s.readReg b).toInt)) (exec (.hSflt32s a b) s) ∧
    FlagResult s (decide ((s.readReg a).toInt ≤ (s.readReg b).toInt)) (exec (.hSfle32s a b) s) ∧
    FlagResult s (decide ((s.readReg a).toNat > (s.readReg b).toNat)) (exec (.hSfgt32u a b) s) ∧
    FlagResult s (decide ((s.readReg a).toNat ≥ (s.readReg b).toNat)) (exec (.hSfge32u a b) s) ∧
    FlagResult s (decide ((s.readReg a).toNat < (s.readReg b).toNat)) (exec (.hSflt32u a b) s) ∧
    FlagResult s (decide ((s.readReg a).toNat ≤ (s.readReg b).toNat)) (exec (.hSfle32u a b) s)

/-- R181: x[B] is moved and unchanged; with A = B nothing changes. -/
def Obligations.MoveCopiesTheRegister : Prop :=
  ∀ (s : State) (a b : RegNo), s.params.implClass2 = true →
    RegResult s a (s.readReg b) (exec (.hMov32 a b) s) ∧
    ∀ t, exec (.hMov32 a b) s = .next t → t.readReg b = s.readReg b

/-- R191 to R193, R196: the low bits are kept, the high bits are copies of the top kept bit, or zero. -/
def Obligations.ExtendsFillTheHighBits : Prop :=
  ∀ (s : State) (a : RegNo), s.params.implClass2 = true →
    (let half := fun op : BitVec 3 => Code.half (0x4B#8 ++ a ++ 0#1 ++ op)
     encode (.hExt16s a) = half 0 ∧ encode (.hExt16z a) = half 1 ∧ encode (.hExt8s a) = half 2 ∧
      encode (.hExt8z a) = half 3) ∧
    (∃ v, RegResult s a v (exec (.hExt16s a) s) ∧
      ∀ k, k < 32 → v.getLsbD k = (s.readReg a).getLsbD (if k < 16 then k else 15)) ∧
    (∃ v, RegResult s a v (exec (.hExt16z a) s) ∧
      ∀ k, k < 32 → v.getLsbD k = if k < 16 then (s.readReg a).getLsbD k else false) ∧
    (∃ v, RegResult s a v (exec (.hExt8s a) s) ∧
      ∀ k, k < 32 → v.getLsbD k = (s.readReg a).getLsbD (if k < 8 then k else 7)) ∧
    (∃ v, RegResult s a v (exec (.hExt8z a) s) ∧
      ∀ k, k < 32 → v.getLsbD k = if k < 8 then (s.readReg a).getLsbD k else false)

/-- R194, R208, R82: no state changes, in a slot or not, whatever Z holds; the pc moves by the length, 2, at the end of the
cycle (R31). A reserved bit of h.nop is refused; h.sched with `IMPL_CLASS3` false raises the exception. -/
def Obligations.NopAndScheduleChangeNothing : Prop :=
  ∀ (s : State) (z : BitVec 12),
    (encode .hNop = .half 0x4B04 ∧ (encode .hNop).len = 2 ∧ exec .hNop s = .next s ∧
      ∀ r : BitVec 5, r ≠ 0 → decode (.half (0x4B#8 ++ r ++ 4#3)) = .error .reservedField) ∧
    (encode (.hSched z) = .half (0xF#4 ++ z) ∧ (encode (.hSched z)).len = 2 ∧
      (s.params.implClass3 = true → exec (.hSched z) s = .next s) ∧
      (s.params.implClass3 = false →
        exec (.hSched z) s = .fault (.illegalInstruction s.pc (.half (0xF#4 ++ z)) s.params.illegalVector)))

/-- R202: the second addend is the register of field D, bits 11:8. -/
def Obligations.AddTakesTheRegisterOfFieldD : Prop :=
  ∀ (s : State) (a b d : RegNo), decode (.half (0x7#4 ++ d ++ a ++ b)) = .ok (.hAdd32s a b d) ∧
    RegResult s a (s.readReg b + s.readReg d) (exec (.hAdd32s a b d) s)

/-- R203, R71: M is insn[11:8] ++ insn[3:0], sign-extended; with `IMPL_CLASS2` false the exception. -/
def Obligations.ImmediateByteIsSignExtended : Prop :=
  ∀ (s : State) (a mhi mlo : BitVec 4),
    decode (.half (0x8#4 ++ mhi ++ a ++ mlo)) = .ok (.hImmch32s a (mhi ++ mlo)) ∧
    (s.params.implClass2 = true →
      RegResult s a ((mhi ++ mlo).signExtend 32) (exec (.hImmch32s a (mhi ++ mlo)) s)) ∧
    (s.params.implClass2 = false →
      exec (.hImmch32s a (mhi ++ mlo)) s = .fault (.illegalInstruction s.pc (.half (0x8#4 ++ mhi ++ a ++ mlo))
        s.params.illegalVector))

/-! ### System instructions, privilege, classes (44, 60) -/

/-- R150 to R156: TBD in Supervisor mode "whatever `HAS_CACHE` and `HAS_MMU` are"; PrivilegeViolation in User mode (R228). -/
def Obligations.CacheAndTlbInstructionsStop : Prop :=
  ∀ (s : State) (a : RegNo) (j : BitVec 16) (i : Instr),
    (let word := fun op : BitVec 4 => Code.word (0x30#8 ++ a ++ j.extractLsb' 8 8 ++ op ++ j.extractLsb' 0 8)
     encode (.lDcbf a j) = word 0 ∧ encode (.lDcbt a j) = word 1 ∧ encode (.lDcbi a j) = word 2) ∧
    (i = .lDcbf a j ∨ i = .lDcbt a j ∨ i = .lDcbi a j ∨ i = .lDcia ∨ i = .lDcfa ∨ i = .lTlbia →
      (s.mode = .supervisor → exec i s = .refused .semanticsTBD) ∧
      (s.mode = .user → exec i s = .fault .privilegeViolation))

/-- R157, R158: plain special registers are storage; any other is refused. -/
def Obligations.SpecialRegisterMoves : Prop :=
  ∀ (s : State) (n : SprNo) (a : RegNo), s.mode = .supervisor →
    (n ∈ s.params.sprPlain →
      (∃ t, exec (.lMtsr n a) s = .next t ∧ t.readSpr n = s.readReg a ∧
        (∀ m : SprNo, m ≠ n → t.readSpr m = s.readSpr m) ∧ SameRegs s t ∧ SameMemory s t ∧ SameFlags s t ∧
        SameMode s t ∧ SameControl s t ∧ t.draws = s.draws) ∧
      RegResult s a (s.readSpr n) (exec (.lMfsr a n) s)) ∧
    (n ∉ s.params.sprPlain →
      exec (.lMtsr n a) s = .refused .unknownSpecialRegister ∧ exec (.lMfsr a n) s = .refused .unknownSpecialRegister)

/-- R228, R232: Classes 4, 5 and 6 fault in User mode; nothing else does, and nothing does in Supervisor mode. -/
def Obligations.OnlySupervisorInstructionsFaultInUserMode : Prop :=
  ∀ (i : Instr) (s : State),
    exec i s = .fault .privilegeViolation ↔ s.mode = .user ∧ 4 ≤ insnClass i

/-- R80, R221, R227 item 8: an instruction of a switched-off class raises, before any other test of it. -/
def Obligations.SwitchedOffClassesRaise : Prop :=
  ∀ (i : Instr) (s : State),
    ((insnClass i = 2 ∧ s.params.implClass2 = false) ∨ (insnClass i = 3 ∧ s.params.implClass3 = false)) →
    exec i s = .fault (.illegalInstruction s.pc (encode i) s.params.illegalVector)

/-- R220, R221: l.illegal and the switched-off classes are the only instructions that raise the exception. -/
def Obligations.OnlyIllegalAndSwitchedOffInstructionsRaise : Prop :=
  ∀ (i : Instr) (s : State) (p : Word) (c : Code) (h : Word),
    exec i s = .fault (.illegalInstruction p c h) → i = .lIllegal ∨ ¬ classOn i s

/-! ### Reset and the hard-wired register -/

/-- The pc, mode, delay slot and memory rows of R35's table: no byte outside TEXT holds a value; Supervisor after reset. The
rows for registers, flags and special registers, "no value" there, are not stated here: the model departs from them (logs 2,
3, 4; `LaunchRegistersAreZeroByChoice`). -/
def Obligations.LaunchGivesPcModeSlotAndMemory : Prop :=
  (∀ p : Params, (State.resetWith p).pc = p.resetPc ∧ (State.resetWith p).mode = p.initialMode ∧
    (State.resetWith p).dslot = none ∧ (State.resetWith p).params = p ∧
    ∀ x : Word, (State.resetWith p).byteAt x = lookupKey x.toNat p.text) ∧
  State.reset = State.resetWith Params.default ∧ State.reset.mode = .supervisor

/-- The model's choice (logs 2, 3, 4), not the spec's: registers, flags and special registers are 0 at a launch. -/
def Obligations.LaunchRegistersAreZeroByChoice : Prop :=
  ∀ (p : Params) (r : RegNo) (n : SprNo), (State.resetWith p).readReg r = 0 ∧ (State.resetWith p).readSpr n = 0 ∧
    (State.resetWith p).flag = false ∧ (State.resetWith p).divflag = false

/-- R8, R22: with `R0_ZERO` register 0 reads 0 and a write to it is dropped; without, every register is storage. -/
def Obligations.RegisterZeroIsHardwiredOnlyByParameter : Prop :=
  ∀ (s : State) (a : RegNo) (v : Word),
    (s.params.r0Zero = true → s.readReg 0 = 0 ∧ s.writeReg 0 v = s) ∧
    (s.params.r0Zero = false ∨ a ≠ 0 → (s.writeReg a v).readReg a = v) ∧ SameRegsBut a s (s.writeReg a v)
end

