-- ==== Sys2Proof/Laws/State.lean ====
section
/-! SUPPORT. One lemma per field per update, so that no proof unfolds a record update; and reading through an update. -/

namespace Sys2Proof.Machine

open Sys2Proof

/-! ### writeReg -/

@[simp] theorem State.writeReg_pc (s : State) (a : RegNo) (v : Word) : (s.writeReg a v).pc = s.pc := by
  unfold State.writeReg; split <;> rfl
@[simp] theorem State.writeReg_flag (s : State) (a : RegNo) (v : Word) : (s.writeReg a v).flag = s.flag := by
  unfold State.writeReg; split <;> rfl
@[simp] theorem State.writeReg_divflag (s : State) (a : RegNo) (v : Word) : (s.writeReg a v).divflag = s.divflag := by
  unfold State.writeReg; split <;> rfl
@[simp] theorem State.writeReg_mode (s : State) (a : RegNo) (v : Word) : (s.writeReg a v).mode = s.mode := by
  unfold State.writeReg; split <;> rfl
@[simp] theorem State.writeReg_spr (s : State) (a : RegNo) (v : Word) : (s.writeReg a v).spr = s.spr := by
  unfold State.writeReg; split <;> rfl
@[simp] theorem State.writeReg_dslot (s : State) (a : RegNo) (v : Word) : (s.writeReg a v).dslot = s.dslot := by
  unfold State.writeReg; split <;> rfl
@[simp] theorem State.writeReg_mem (s : State) (a : RegNo) (v : Word) : (s.writeReg a v).mem = s.mem := by
  unfold State.writeReg; split <;> rfl
@[simp] theorem State.writeReg_draws (s : State) (a : RegNo) (v : Word) : (s.writeReg a v).draws = s.draws := by
  unfold State.writeReg; split <;> rfl
@[simp] theorem State.writeReg_params (s : State) (a : RegNo) (v : Word) : (s.writeReg a v).params = s.params := by
  unfold State.writeReg; split <;> rfl

/-! ### writeSpr -/

@[simp] theorem State.writeSpr_regs (s : State) (n : SprNo) (v : Word) : (s.writeSpr n v).regs = s.regs := rfl
@[simp] theorem State.writeSpr_pc (s : State) (n : SprNo) (v : Word) : (s.writeSpr n v).pc = s.pc := rfl
@[simp] theorem State.writeSpr_flag (s : State) (n : SprNo) (v : Word) : (s.writeSpr n v).flag = s.flag := rfl
@[simp] theorem State.writeSpr_divflag (s : State) (n : SprNo) (v : Word) : (s.writeSpr n v).divflag = s.divflag := rfl
@[simp] theorem State.writeSpr_mode (s : State) (n : SprNo) (v : Word) : (s.writeSpr n v).mode = s.mode := rfl
@[simp] theorem State.writeSpr_dslot (s : State) (n : SprNo) (v : Word) : (s.writeSpr n v).dslot = s.dslot := rfl
@[simp] theorem State.writeSpr_mem (s : State) (n : SprNo) (v : Word) : (s.writeSpr n v).mem = s.mem := rfl
@[simp] theorem State.writeSpr_draws (s : State) (n : SprNo) (v : Word) : (s.writeSpr n v).draws = s.draws := rfl
@[simp] theorem State.writeSpr_params (s : State) (n : SprNo) (v : Word) : (s.writeSpr n v).params = s.params := rfl

/-! ### putByte -/

@[simp] theorem State.putByte_regs (s : State) (a : Word) (b : Byte) : (s.putByte a b).regs = s.regs := rfl
@[simp] theorem State.putByte_pc (s : State) (a : Word) (b : Byte) : (s.putByte a b).pc = s.pc := rfl
@[simp] theorem State.putByte_flag (s : State) (a : Word) (b : Byte) : (s.putByte a b).flag = s.flag := rfl
@[simp] theorem State.putByte_divflag (s : State) (a : Word) (b : Byte) : (s.putByte a b).divflag = s.divflag := rfl
@[simp] theorem State.putByte_mode (s : State) (a : Word) (b : Byte) : (s.putByte a b).mode = s.mode := rfl
@[simp] theorem State.putByte_spr (s : State) (a : Word) (b : Byte) : (s.putByte a b).spr = s.spr := rfl
@[simp] theorem State.putByte_dslot (s : State) (a : Word) (b : Byte) : (s.putByte a b).dslot = s.dslot := rfl
@[simp] theorem State.putByte_draws (s : State) (a : Word) (b : Byte) : (s.putByte a b).draws = s.draws := rfl
@[simp] theorem State.putByte_params (s : State) (a : Word) (b : Byte) : (s.putByte a b).params = s.params := rfl

/-! ### putBytes -/

@[simp] theorem State.putBytes_regs (s : State) (ea : Word) (bs : List Byte) : (s.putBytes ea bs).regs = s.regs := by
  induction bs generalizing s ea with
  | nil => rfl
  | cons b bs ih => simp [State.putBytes, ih]
@[simp] theorem State.putBytes_pc (s : State) (ea : Word) (bs : List Byte) : (s.putBytes ea bs).pc = s.pc := by
  induction bs generalizing s ea with
  | nil => rfl
  | cons b bs ih => simp [State.putBytes, ih]
@[simp] theorem State.putBytes_flag (s : State) (ea : Word) (bs : List Byte) : (s.putBytes ea bs).flag = s.flag := by
  induction bs generalizing s ea with
  | nil => rfl
  | cons b bs ih => simp [State.putBytes, ih]
@[simp] theorem State.putBytes_divflag (s : State) (ea : Word) (bs : List Byte) : (s.putBytes ea bs).divflag = s.divflag := by
  induction bs generalizing s ea with
  | nil => rfl
  | cons b bs ih => simp [State.putBytes, ih]
@[simp] theorem State.putBytes_mode (s : State) (ea : Word) (bs : List Byte) : (s.putBytes ea bs).mode = s.mode := by
  induction bs generalizing s ea with
  | nil => rfl
  | cons b bs ih => simp [State.putBytes, ih]
@[simp] theorem State.putBytes_spr (s : State) (ea : Word) (bs : List Byte) : (s.putBytes ea bs).spr = s.spr := by
  induction bs generalizing s ea with
  | nil => rfl
  | cons b bs ih => simp [State.putBytes, ih]
@[simp] theorem State.putBytes_dslot (s : State) (ea : Word) (bs : List Byte) : (s.putBytes ea bs).dslot = s.dslot := by
  induction bs generalizing s ea with
  | nil => rfl
  | cons b bs ih => simp [State.putBytes, ih]
@[simp] theorem State.putBytes_draws (s : State) (ea : Word) (bs : List Byte) : (s.putBytes ea bs).draws = s.draws := by
  induction bs generalizing s ea with
  | nil => rfl
  | cons b bs ih => simp [State.putBytes, ih]
@[simp] theorem State.putBytes_params (s : State) (ea : Word) (bs : List Byte) : (s.putBytes ea bs).params = s.params := by
  induction bs generalizing s ea with
  | nil => rfl
  | cons b bs ih => simp [State.putBytes, ih]

/-! ### noteDivisor -/

@[simp] theorem State.noteDivisor_regs (s : State) (d : Word) : (s.noteDivisor d).regs = s.regs := by
  unfold State.noteDivisor; split <;> rfl
@[simp] theorem State.noteDivisor_pc (s : State) (d : Word) : (s.noteDivisor d).pc = s.pc := by
  unfold State.noteDivisor; split <;> rfl
@[simp] theorem State.noteDivisor_flag (s : State) (d : Word) : (s.noteDivisor d).flag = s.flag := by
  unfold State.noteDivisor; split <;> rfl
@[simp] theorem State.noteDivisor_mode (s : State) (d : Word) : (s.noteDivisor d).mode = s.mode := by
  unfold State.noteDivisor; split <;> rfl
@[simp] theorem State.noteDivisor_spr (s : State) (d : Word) : (s.noteDivisor d).spr = s.spr := by
  unfold State.noteDivisor; split <;> rfl
@[simp] theorem State.noteDivisor_dslot (s : State) (d : Word) : (s.noteDivisor d).dslot = s.dslot := by
  unfold State.noteDivisor; split <;> rfl
@[simp] theorem State.noteDivisor_mem (s : State) (d : Word) : (s.noteDivisor d).mem = s.mem := by
  unfold State.noteDivisor; split <;> rfl
@[simp] theorem State.noteDivisor_draws (s : State) (d : Word) : (s.noteDivisor d).draws = s.draws := by
  unfold State.noteDivisor; split <;> rfl
@[simp] theorem State.noteDivisor_params (s : State) (d : Word) : (s.noteDivisor d).params = s.params := by
  unfold State.noteDivisor; split <;> rfl

/-! ### writeQuotient -/

@[simp] theorem State.writeQuotient_pc (s : State) (a : RegNo) (q : Option Word) : (s.writeQuotient a q).pc = s.pc := by
  unfold State.writeQuotient; split <;> simp
@[simp] theorem State.writeQuotient_flag (s : State) (a : RegNo) (q : Option Word) : (s.writeQuotient a q).flag = s.flag := by
  unfold State.writeQuotient; split <;> simp
@[simp] theorem State.writeQuotient_divflag (s : State) (a : RegNo) (q : Option Word) : (s.writeQuotient a q).divflag = s.divflag := by
  unfold State.writeQuotient; split <;> simp
@[simp] theorem State.writeQuotient_mode (s : State) (a : RegNo) (q : Option Word) : (s.writeQuotient a q).mode = s.mode := by
  unfold State.writeQuotient; split <;> simp
@[simp] theorem State.writeQuotient_spr (s : State) (a : RegNo) (q : Option Word) : (s.writeQuotient a q).spr = s.spr := by
  unfold State.writeQuotient; split <;> simp
@[simp] theorem State.writeQuotient_dslot (s : State) (a : RegNo) (q : Option Word) : (s.writeQuotient a q).dslot = s.dslot := by
  unfold State.writeQuotient; split <;> simp
@[simp] theorem State.writeQuotient_mem (s : State) (a : RegNo) (q : Option Word) : (s.writeQuotient a q).mem = s.mem := by
  unfold State.writeQuotient; split <;> simp
@[simp] theorem State.writeQuotient_params (s : State) (a : RegNo) (q : Option Word) : (s.writeQuotient a q).params = s.params := by
  unfold State.writeQuotient; split <;> simp

/-! ### advance: the end of the cycle writes the pc and the slot only -/

@[simp] theorem advance_regs (s : State) (len : Word) (t : State) : (advance s len t).regs = t.regs := by
  unfold advance; split <;> (try split) <;> rfl
@[simp] theorem advance_flag (s : State) (len : Word) (t : State) : (advance s len t).flag = t.flag := by
  unfold advance; split <;> (try split) <;> rfl
@[simp] theorem advance_divflag (s : State) (len : Word) (t : State) : (advance s len t).divflag = t.divflag := by
  unfold advance; split <;> (try split) <;> rfl
@[simp] theorem advance_mode (s : State) (len : Word) (t : State) : (advance s len t).mode = t.mode := by
  unfold advance; split <;> (try split) <;> rfl
@[simp] theorem advance_spr (s : State) (len : Word) (t : State) : (advance s len t).spr = t.spr := by
  unfold advance; split <;> (try split) <;> rfl
@[simp] theorem advance_mem (s : State) (len : Word) (t : State) : (advance s len t).mem = t.mem := by
  unfold advance; split <;> (try split) <;> rfl
@[simp] theorem advance_draws (s : State) (len : Word) (t : State) : (advance s len t).draws = t.draws := by
  unfold advance; split <;> (try split) <;> rfl
@[simp] theorem advance_params (s : State) (len : Word) (t : State) : (advance s len t).params = t.params := by
  unfold advance; split <;> (try split) <;> rfl

/-! ### placeText: a launch's program changes the parameters only -/

@[simp] theorem placeText_regs (s : State) (bs : List Byte) : (placeText s bs).regs = s.regs := rfl
@[simp] theorem placeText_pc (s : State) (bs : List Byte) : (placeText s bs).pc = s.pc := rfl
@[simp] theorem placeText_flag (s : State) (bs : List Byte) : (placeText s bs).flag = s.flag := rfl
@[simp] theorem placeText_divflag (s : State) (bs : List Byte) : (placeText s bs).divflag = s.divflag := rfl
@[simp] theorem placeText_mode (s : State) (bs : List Byte) : (placeText s bs).mode = s.mode := rfl
@[simp] theorem placeText_spr (s : State) (bs : List Byte) : (placeText s bs).spr = s.spr := rfl
@[simp] theorem placeText_dslot (s : State) (bs : List Byte) : (placeText s bs).dslot = s.dslot := rfl
@[simp] theorem placeText_mem (s : State) (bs : List Byte) : (placeText s bs).mem = s.mem := rfl
@[simp] theorem placeText_draws (s : State) (bs : List Byte) : (placeText s bs).draws = s.draws := rfl

/-! ### Reading registers through an update -/

theorem State.readReg_congr {s t : State} (hr : t.regs = s.regs) (hp : t.params = s.params) (r : RegNo) :
    t.readReg r = s.readReg r := by
  unfold State.readReg; rw [hr, hp]

theorem State.readSpr_congr {s t : State} (h : t.spr = s.spr) (n : SprNo) : t.readSpr n = s.readSpr n := by
  unfold State.readSpr; rw [h]

theorem State.byteAt_congr {s t : State} (hm : t.mem = s.mem) (hp : t.params = s.params) (x : Word) :
    t.byteAt x = s.byteAt x := by
  unfold State.byteAt; rw [hm, hp]

/-- A register reads back what was written to it, but for the hard-wired register 0 (R22). -/
theorem State.readReg_writeReg_same (s : State) (a : RegNo) (v : Word) :
    (s.writeReg a v).readReg a = if s.params.r0Zero = true ∧ a = 0 then 0 else v := by
  by_cases h : (s.params.r0Zero && a == 0) = true
  · have h' : s.params.r0Zero = true ∧ a = 0 := by simpa using h
    simp [State.readReg, h']
  · have h' : ¬(s.params.r0Zero = true ∧ a = 0) := by simpa using h
    rw [if_neg h']
    unfold State.readReg
    rw [State.writeReg_params, if_neg h]
    unfold State.writeReg
    rw [if_neg h]
    simp [Vector.get_eq_getElem]

/-- A write leaves every other register alone. -/
theorem State.readReg_writeReg_other (s : State) {a r : RegNo} (v : Word) (h : r ≠ a) :
    (s.writeReg a v).readReg r = s.readReg r := by
  unfold State.readReg
  rw [State.writeReg_params]
  split
  · rfl
  · unfold State.writeReg
    split
    · rfl
    · have hne : a.toNat ≠ r.toNat := fun e => h (BitVec.eq_of_toNat_eq e.symm)
      simp [Vector.get_eq_getElem, Vector.getElem_set_ne, hne]

end Sys2Proof.Machine
end

