-- ==== Sys2Proof/Laws/Cycle.lean ====
section
/-! SUPPORT. The laws of the cycle: what fetch answers, the length of what decodes, the slot test, and the pc and the slot at
the end of the cycle. -/

namespace Sys2Proof.Machine

open Sys2Proof

/-! ### Fetch -/

theorem isLong_iff (h : Half) : isLong h = true ↔ h.extractLsb' 14 2 = 0 := by
  simp [isLong]

theorem fetchHalf_eq_ok {s : State} {a : Word} {b0 b1 : Byte} (h0 : lookupKey a.toNat s.params.text = some b0)
    (h1 : lookupKey (a + 1).toNat s.params.text = some b1) : fetchHalf s a = .ok (b0 ++ b1) := by
  simp only [fetchHalf, h0, h1]

theorem fetchHalf_eq_error {s : State} {a : Word}
    (h : lookupKey a.toNat s.params.text = none ∨ lookupKey (a + 1).toNat s.params.text = none) :
    fetchHalf s a = .error .fetchOutsideText := by
  unfold fetchHalf
  rcases h with h | h <;> rw [h]
  cases lookupKey a.toNat s.params.text <;> rfl

theorem fetch_odd {s : State} {a : Word} (h : a.getLsbD 0 = true) : fetch s a = .error .misalignedFetch :=
  if_pos h

theorem fetch_first_error {s : State} {a : Word} (h : a.getLsbD 0 = false) {r : Refusal}
    (h0 : fetchHalf s a = .error r) : fetch s a = .error r := by
  unfold fetch
  rw [if_neg (by simp only [h, Bool.false_eq_true, not_false_eq_true]), h0]

theorem fetch_short {s : State} {a : Word} (h : a.getLsbD 0 = false) {h0 : Half} (hf : fetchHalf s a = .ok h0)
    (hl : isLong h0 = false) : fetch s a = .ok (.half h0) := by
  unfold fetch
  rw [if_neg (by simp only [h, Bool.false_eq_true, not_false_eq_true]), hf]
  simp only [hl, Bool.false_eq_true, if_false]

theorem fetch_long_misaligned {s : State} {a : Word} (h : a.getLsbD 0 = false) {h0 : Half}
    (hf : fetchHalf s a = .ok h0) (hl : isLong h0 = true)
    (ha : s.params.insn32Align = .four ∧ a.getLsbD 1 = true) : fetch s a = .error .misalignedFetch := by
  unfold fetch
  rw [if_neg (by simp only [h, Bool.false_eq_true, not_false_eq_true]), hf]
  simp only [hl, if_true]
  exact if_pos ha

/-- A 32-bit instruction at an admissible address: the second half decides. -/
theorem fetch_long {s : State} {a : Word} (h : a.getLsbD 0 = false) {h0 : Half} (hf : fetchHalf s a = .ok h0)
    (hl : isLong h0 = true) (ha : s.params.insn32Align = .two ∨ a.getLsbD 1 = false) :
    fetch s a = match fetchHalf s (a + 2) with
      | .error r => .error r
      | .ok h1 => .ok (.word (h0 ++ h1)) := by
  have hn : ¬(s.params.insn32Align = .four ∧ a.getLsbD 1 = true) := by
    rintro ⟨h4, h1⟩
    rcases ha with e | e
    · rw [h4] at e; cases e
    · rw [h1] at e; cases e
  unfold fetch
  rw [if_neg (by simp only [h, Bool.false_eq_true, not_false_eq_true]), hf]
  simp only [hl, if_true]
  exact if_neg hn

/-! ### Lengths and the slot -/

theorem Code.len_eq (c : Code) : c.len = 2 ∨ c.len = 4 := by
  cases c
  · exact .inl rfl
  · exact .inr rfl

/-- What decodes from a word of some length is encoded in that length. -/
theorem decode_len {c : Code} {i : Instr} (h : decode c = .ok i) : (encode i).len = c.len := by
  have hz : ∀ (r : Nat) (j : Instr), ifZero r j = .ok i → j = i := by
    intro r j e
    unfold ifZero at e
    split at e <;> cases e
    rfl
  cases c with
  | half w =>
    simp only [decode, decodeHalf, decodeCompare, decodeSingle] at h
    repeat' split at h
    all_goals first | (cases h; done) | (cases h; rfl) | (cases hz _ _ h; rfl)
  | word w =>
    simp only [decode, decodeWord, decodeAlu, decodeSystem] at h
    repeat' split at h
    all_goals first | (cases h; done) | (cases h; rfl) | (cases hz _ _ h; rfl)

theorem slotOverrun_none {s : State} (h : s.dslot = none) (len : Word) : slotOverrun s len = false := by
  simp only [slotOverrun, h]

theorem slotOverrun_some {s : State} {d : Slot} (h : s.dslot = some d) (len : Word) :
    slotOverrun s len = decide ((d.fin - (s.pc + len)).toNat > 2) := by
  simp only [slotOverrun, h]

theorem runOver_of_slot {s : State} {d : Slot} (h : s.dslot = some d) : s.runOver = false := by
  simp [State.runOver, h]

theorem advance_none {s : State} (h : s.dslot = none) (len : Word) (t : State) :
    advance s len t = { t with pc := s.pc + len } := by
  simp only [advance, h]

theorem advance_inside {s : State} {d : Slot} (h : s.dslot = some d) {len : Word} (hn : s.pc + len ≠ d.fin)
    (t : State) : advance s len t = { t with pc := s.pc + len } := by
  simp only [advance, h, if_neg hn]

theorem advance_close {s : State} {d : Slot} (h : s.dslot = some d) {len : Word} (he : s.pc + len = d.fin)
    (t : State) : advance s len t = { t with dslot := none, pc := d.target.getD d.fin } := by
  simp only [advance, h, if_pos he]

/-! ### Parity of addresses -/

theorem getLsbD_zero_add (x y : Word) : (x + y).getLsbD 0 = (x.getLsbD 0 != y.getLsbD 0) := by
  simp only [← BitVec.testBit_toNat, BitVec.toNat_add, Nat.testBit_zero]
  rcases Nat.mod_two_eq_zero_or_one x.toNat with hx | hx <;>
    rcases Nat.mod_two_eq_zero_or_one y.toNat with hy | hy <;>
    simp [hx, hy, Nat.add_mod]

/-- An offset of the form X ++ 0b00 is even (R30: only h.jalr can have an odd target). -/
theorem getLsbD_zero_offset {n : Nat} (x : BitVec n) : ((x ++ 0#2).signExtend 32).getLsbD 0 = false := by
  rw [BitVec.getLsbD_signExtend, if_pos (by omega), BitVec.getLsbD_append]
  simp

theorem target_even {d : Word} (h : d.getLsbD 0 = false) {n : Nat} (x : BitVec n) :
    (d + (x ++ 0#2).signExtend 32).getLsbD 0 = false := by
  rw [getLsbD_zero_add, h, getLsbD_zero_offset]
  rfl

end Sys2Proof.Machine
end

