-- ==== Sys2Proof/Laws/Sparse.lean ====
section
/-! SUPPORT. The laws of sparse storage: reading after a write and after an erasure, and the canonical form. -/

namespace Sys2Proof.Machine

open Sys2Proof

variable {α : Type}

@[simp] theorem lookupKey_nil (k : Nat) : lookupKey k ([] : List (Nat × α)) = none := rfl

theorem lookupKey_insertKey_same (k : Nat) (v : α) (l : List (Nat × α)) :
    lookupKey k (insertKey k v l) = some v := by
  induction l with
  | nil => simp [insertKey, lookupKey]
  | cons c l ih =>
    obtain ⟨k', v'⟩ := c
    unfold insertKey
    split
    · simp [lookupKey]
    · split
      · simp [lookupKey]
      · simp [lookupKey, *]

theorem lookupKey_insertKey_other {k j : Nat} (h : j ≠ k) (v : α) (l : List (Nat × α)) :
    lookupKey j (insertKey k v l) = lookupKey j l := by
  induction l with
  | nil => simp [insertKey, lookupKey, h]
  | cons c l ih =>
    obtain ⟨k', v'⟩ := c
    unfold insertKey
    split
    · simp [lookupKey, h]
    · split
      · next h1 h2 => subst h2; simp [lookupKey, h]
      · simp [lookupKey, ih]

theorem lookupKey_eraseKey_other {k j : Nat} (h : j ≠ k) (l : List (Nat × α)) :
    lookupKey j (eraseKey k l) = lookupKey j l := by
  induction l with
  | nil => rfl
  | cons c l ih =>
    obtain ⟨k', v'⟩ := c
    unfold eraseKey
    split
    · next h1 => subst h1; simp [lookupKey, h, ih]
    · simp [lookupKey, ih]

theorem rising_mono {lo lo' : Nat} (h : lo' ≤ lo) {l : List (Nat × α)} (hl : rising lo l = true) :
    rising lo' l = true := by
  cases l with
  | nil => rfl
  | cons c l =>
    obtain ⟨k, v⟩ := c
    simp only [rising, Bool.and_eq_true, decide_eq_true_eq] at *
    exact ⟨by omega, hl.2⟩

/-- A key below a rising list's least key is not listed. -/
theorem lookupKey_below {lo k : Nat} {l : List (Nat × α)} (hl : rising lo l = true) (h : k < lo) :
    lookupKey k l = none := by
  induction l generalizing lo with
  | nil => rfl
  | cons c l ih =>
    obtain ⟨k', v'⟩ := c
    simp only [rising, Bool.and_eq_true, decide_eq_true_eq] at hl
    have hne : k ≠ k' := by omega
    simp only [lookupKey, if_neg hne]
    exact ih hl.2 (by omega)

/-- An erased key is not listed. -/
theorem lookupKey_eraseKey_same (k : Nat) (l : List (Nat × α)) : lookupKey k (eraseKey k l) = none := by
  induction l with
  | nil => rfl
  | cons c l ih =>
    obtain ⟨k', v'⟩ := c
    unfold eraseKey
    split
    · exact ih
    · next h => simp only [lookupKey, if_neg h]; exact ih

theorem rising_insertKey {lo k : Nat} (v : α) {l : List (Nat × α)} (hl : rising lo l = true) (hk : lo ≤ k) :
    rising lo (insertKey k v l) = true := by
  induction l generalizing lo with
  | nil => simpa [insertKey, rising] using hk
  | cons c l ih =>
    obtain ⟨k', v'⟩ := c
    simp only [rising, Bool.and_eq_true, decide_eq_true_eq] at hl
    unfold insertKey
    split
    · simp only [rising, Bool.and_eq_true, decide_eq_true_eq]
      exact ⟨hk, by omega, hl.2⟩
    · split
      · next h1 h2 =>
        subst h2
        simp only [rising, Bool.and_eq_true, decide_eq_true_eq]
        exact ⟨hk, hl.2⟩
      · simp only [rising, Bool.and_eq_true, decide_eq_true_eq]
        exact ⟨hl.1, ih hl.2 (by omega)⟩

theorem rising_eraseKey {lo k : Nat} {l : List (Nat × α)} (hl : rising lo l = true) :
    rising lo (eraseKey k l) = true := by
  induction l generalizing lo with
  | nil => rfl
  | cons c l ih =>
    obtain ⟨k', v'⟩ := c
    simp only [rising, Bool.and_eq_true, decide_eq_true_eq] at hl
    unfold eraseKey
    split
    · exact ih (rising_mono (by omega) hl.2)
    · simp only [rising, Bool.and_eq_true, decide_eq_true_eq]
      exact ⟨hl.1, ih hl.2⟩

/-- What holds of every entry and of the new one holds of every entry after the write. -/
theorem all_insertKey (p : Nat × α → Bool) {k : Nat} {v : α} {l : List (Nat × α)} (hl : l.all p = true)
    (hk : p (k, v) = true) : (insertKey k v l).all p = true := by
  induction l with
  | nil => simpa [insertKey] using hk
  | cons c l ih =>
    obtain ⟨k', v'⟩ := c
    simp only [List.all_cons, Bool.and_eq_true] at hl
    unfold insertKey
    split
    · simp [hk, hl.1, hl.2]
    · split
      · simp [hk, hl.2]
      · simp [hl.1, ih hl.2]

theorem all_eraseKey (p : Nat × α → Bool) {k : Nat} {l : List (Nat × α)} (hl : l.all p = true) :
    (eraseKey k l).all p = true := by
  induction l with
  | nil => rfl
  | cons c l ih =>
    obtain ⟨k', v'⟩ := c
    simp only [List.all_cons, Bool.and_eq_true] at hl
    unfold eraseKey
    split
    · exact ih hl.2
    · simp [hl.1, ih hl.2]

/-- Memory keeps its canonical form when a byte below 2^32 is written. -/
theorem memory_wf_insertKey {m : Memory} (h : Memory.wf m = true) {a : Nat} (b : Byte)
    (ha : a < 4294967296) : Memory.wf (insertKey a b m) = true := by
  unfold Memory.wf at *
  rw [Bool.and_eq_true] at *
  exact ⟨rising_insertKey b h.1 (Nat.zero_le _), all_insertKey _ h.2 (by simpa using ha)⟩

/-- The special registers keep their canonical form when one is written. -/
theorem sprWf_writeSpr {s : State} (h : sprWf s.spr = true) (n : SprNo) (v : Word) :
    sprWf (s.writeSpr n v).spr = true := by
  unfold sprWf State.writeSpr at *
  rw [Bool.and_eq_true] at *
  by_cases hv : v = 0
  · simp only [hv, if_true]
    exact ⟨rising_eraseKey h.1, all_eraseKey _ h.2⟩
  · simp only [if_neg hv]
    refine ⟨rising_insertKey v h.1 (Nat.zero_le _), all_insertKey _ h.2 ?_⟩
    rw [Bool.and_eq_true, decide_eq_true_eq, bne_iff_ne]
    exact ⟨n.isLt, hv⟩

/-- A special register reads back what was written to it. -/
theorem State.readSpr_writeSpr_same (s : State) (n : SprNo) (v : Word) :
    (s.writeSpr n v).readSpr n = v := by
  unfold State.readSpr State.writeSpr
  by_cases hv : v = 0
  · simp only [if_pos hv, lookupKey_eraseKey_same, Option.getD_none]
    exact hv.symm
  · simp only [if_neg hv, lookupKey_insertKey_same, Option.getD_some]

/-- A write of a special register leaves every other one alone. -/
theorem State.readSpr_writeSpr_other (s : State) {n m : SprNo} (v : Word) (h : m ≠ n) :
    (s.writeSpr n v).readSpr m = s.readSpr m := by
  have hne : m.toNat ≠ n.toNat := fun e => h (BitVec.eq_of_toNat_eq e)
  unfold State.readSpr State.writeSpr
  by_cases hv : v = 0
  · simp only [if_pos hv, lookupKey_eraseKey_other hne]
  · simp only [if_neg hv, lookupKey_insertKey_other hne]

end Sys2Proof.Machine
end

