-- ==== Sys2Proof/Laws/Data.lean ====
section
/-! SUPPORT. The laws of memory: what one byte reads as after a store, when an access passes its tests, and what the reads
and the write answer then. -/

namespace Sys2Proof.Machine

open Sys2Proof

theorem inText_eq_false {p : Params} {a : Nat} : inText p a = false ↔ lookupKey a p.text = none := by
  unfold inText; cases lookupKey a p.text <;> simp

theorem State.byteAt_of_not_inText {s : State} {a : Word} (h : inText s.params a.toNat = false) :
    s.byteAt a = lookupKey a.toNat s.mem := by
  unfold State.byteAt; rw [inText_eq_false.mp h]

theorem State.byteAt_putByte_same {s : State} {a : Word} (b : Byte) (h : inText s.params a.toNat = false) :
    (s.putByte a b).byteAt a = some b := by
  rw [State.byteAt_of_not_inText (by simpa using h)]
  exact lookupKey_insertKey_same _ _ _

theorem State.byteAt_putByte_other (s : State) {a x : Word} (b : Byte) (h : x ≠ a) :
    (s.putByte a b).byteAt x = s.byteAt x := by
  have hne : x.toNat ≠ a.toNat := fun e => h (BitVec.eq_of_toNat_eq e)
  unfold State.byteAt State.putByte
  simp only [lookupKey_insertKey_other hne]

theorem mem_bytesAt {ea x : Word} {n : Nat} : x ∈ bytesAt ea n ↔ ∃ k, k < n ∧ x = ea + BitVec.ofNat 32 k := by
  simp only [bytesAt, List.mem_map, List.mem_range]
  exact ⟨fun ⟨k, hk, e⟩ => ⟨k, hk, e.symm⟩, fun ⟨k, hk, e⟩ => ⟨k, hk, e.symm⟩⟩

theorem addr_succ (ea : Word) (k : Nat) : ea + 1 + BitVec.ofNat 32 k = ea + BitVec.ofNat 32 (k + 1) := by
  rw [BitVec.add_assoc]
  congr 1
  apply BitVec.eq_of_toNat_eq
  simp [Nat.add_comm]

/-- A store leaves every byte outside its own alone. -/
theorem State.byteAt_putBytes_other (s : State) (ea : Word) (bs : List Byte) {x : Word}
    (h : x ∉ bytesAt ea bs.length) : (s.putBytes ea bs).byteAt x = s.byteAt x := by
  induction bs generalizing s ea with
  | nil => rfl
  | cons b bs ih =>
    have h0 : x ≠ ea := fun e => h (mem_bytesAt.mpr ⟨0, by simp, by simp [e]⟩)
    have h1 : x ∉ bytesAt (ea + 1) bs.length := by
      intro hm
      obtain ⟨k, hk, e⟩ := mem_bytesAt.mp hm
      exact h (mem_bytesAt.mpr ⟨k + 1, by simpa using hk, by rw [e, addr_succ]⟩)
    rw [State.putBytes, ih _ _ h1, State.byteAt_putByte_other _ _ h0]

/-- The bytes stored read back, the first at the lowest address. -/
theorem State.byteAt_putBytes_same (s : State) (ea : Word) (bs : List Byte) (hlen : bs.length ≤ 4294967296)
    (ht : ∀ k, k < bs.length → inText s.params (ea + BitVec.ofNat 32 k).toNat = false) {k : Nat} (hk : k < bs.length) :
    (s.putBytes ea bs).byteAt (ea + BitVec.ofNat 32 k) = bs[k]? := by
  induction bs generalizing s ea k with
  | nil => simp at hk
  | cons b bs ih =>
    rw [List.length_cons] at hlen hk
    cases k with
    | zero =>
      have hout : ea ∉ bytesAt (ea + 1) bs.length := by
        intro hm
        obtain ⟨j, hj, e⟩ := mem_bytesAt.mp hm
        rw [addr_succ] at e
        have e' := congrArg BitVec.toNat e
        have := ea.isLt
        simp only [BitVec.toNat_add, BitVec.toNat_ofNat] at e'
        omega
      have h0 := ht 0 (by simp)
      simp only [BitVec.add_zero] at h0
      simp only [BitVec.add_zero, List.getElem?_cons_zero]
      rw [State.putBytes, State.byteAt_putBytes_other _ _ _ hout, State.byteAt_putByte_same _ h0]
    | succ k =>
      rw [State.putBytes, ← addr_succ, List.getElem?_cons_succ]
      refine ih (s.putByte ea b) (ea + 1) (by omega) ?_ (by omega)
      intro j hj
      rw [State.putByte_params, addr_succ]
      exact ht (j + 1) (by rw [List.length_cons]; omega)

theorem any_bytesAt (q : Word → Bool) (ea : Word) (n : Nat) :
    (bytesAt ea n).any q = true ↔ ∃ k, k < n ∧ q (ea + BitVec.ofNat 32 k) = true := by
  rw [List.any_eq_true]
  constructor
  · rintro ⟨a, ha, hq⟩
    obtain ⟨k, hk, rfl⟩ := mem_bytesAt.mp ha
    exact ⟨k, hk, hq⟩
  · rintro ⟨k, hk, hq⟩
    exact ⟨_, mem_bytesAt.mpr ⟨k, hk, rfl⟩, hq⟩

/-- Misaligned: the first test (R227 item 15). -/
theorem dataCheck_misaligned {p : Params} {ea : Word} {n : Nat} {store : Bool} (h : ea.toNat % n ≠ 0) :
    dataCheck p ea n store = some (.fault .misaligned) :=
  if_pos h

/-- Aligned, and some byte outside RAM. -/
theorem dataCheck_outsideRam {p : Params} {ea : Word} {n : Nat} {store : Bool} (h : ea.toNat % n = 0) {k : Nat}
    (hk : k < n) (hr : inRam p (ea + BitVec.ofNat 32 k).toNat = false) :
    dataCheck p ea n store = some (.refused .outsideRam) := by
  have hany : ((bytesAt ea n).any (fun a => !inRam p a.toNat)) = true :=
    (any_bytesAt _ ea n).mpr ⟨k, hk, by rw [hr]; rfl⟩
  unfold dataCheck
  rw [if_neg (not_not.mpr h), if_pos hany]

/-- Aligned and inside RAM: only a store has one more test. -/
theorem dataCheck_inRam {p : Params} {ea : Word} {n : Nat} {store : Bool} (h : ea.toNat % n = 0)
    (hr : ∀ k, k < n → inRam p (ea + BitVec.ofNat 32 k).toNat = true) :
    dataCheck p ea n store =
      if store && (bytesAt ea n).any (fun a => inText p a.toNat) then some (.refused .storeToText) else none := by
  have hany : ¬ ((bytesAt ea n).any (fun a => !inRam p a.toNat)) = true := by
    intro e
    obtain ⟨k, hk, e⟩ := (any_bytesAt _ ea n).mp e
    rw [hr k hk] at e
    cases e
  unfold dataCheck
  rw [if_neg (not_not.mpr h), if_neg hany]

/-- A store, aligned and inside RAM, and some byte in TEXT. -/
theorem dataCheck_storeToText {p : Params} {ea : Word} {n : Nat} (h : ea.toNat % n = 0)
    (hr : ∀ k, k < n → inRam p (ea + BitVec.ofNat 32 k).toNat = true) {k : Nat} (hk : k < n)
    (ht : inText p (ea + BitVec.ofNat 32 k).toNat = true) :
    dataCheck p ea n true = some (.refused .storeToText) := by
  rw [dataCheck_inRam h hr, (any_bytesAt _ ea n).mpr ⟨k, hk, ht⟩]
  rfl

/-- When the tests of a data access all pass. -/
theorem dataCheck_eq_none {p : Params} {ea : Word} {n : Nat} {store : Bool} :
    dataCheck p ea n store = none ↔
      ea.toNat % n = 0 ∧ (∀ k, k < n → inRam p (ea + BitVec.ofNat 32 k).toNat = true) ∧
        (store = true → ∀ k, k < n → inText p (ea + BitVec.ofNat 32 k).toNat = false) := by
  constructor
  · intro h
    have h1 : ea.toNat % n = 0 := by
      by_contra h1
      rw [dataCheck_misaligned h1] at h
      cases h
    have h2 : ∀ k, k < n → inRam p (ea + BitVec.ofNat 32 k).toNat = true := by
      intro k hk
      cases hr : inRam p (ea + BitVec.ofNat 32 k).toNat with
      | true => rfl
      | false => rw [dataCheck_outsideRam h1 hk hr] at h; cases h
    refine ⟨h1, h2, ?_⟩
    rintro rfl k hk
    cases ht : inText p (ea + BitVec.ofNat 32 k).toNat with
    | false => rfl
    | true => rw [dataCheck_storeToText h1 h2 hk ht] at h; cases h
  · rintro ⟨h1, h2, h3⟩
    rw [dataCheck_inRam h1 h2]
    cases store with
    | false => rfl
    | true =>
      have hany : (bytesAt ea n).any (fun a => inText p a.toNat) = false := by
        rw [← Bool.not_eq_true]
        intro e
        obtain ⟨k, hk, e⟩ := (any_bytesAt _ ea n).mp e
        rw [h3 rfl k hk] at e
        cases e
      rw [hany]
      rfl

/-- `memWrite` answers a next state exactly where the bytes are writable, and then the stored bytes are its whole effect. -/
theorem memWrite_eq_next {s t : State} {ea : Word} {bs : List Byte} :
    memWrite s ea bs = .next t ↔ Writable s ea bs.length ∧ t = s.putBytes ea bs := by
  unfold memWrite
  cases h : dataCheck s.params ea bs.length true with
  | none =>
    have h' := dataCheck_eq_none.mp h
    constructor
    · intro e
      cases e
      exact ⟨⟨h'.1, fun k hk => ⟨h'.2.1 k hk, h'.2.2 rfl k hk⟩⟩, rfl⟩
    · rintro ⟨-, rfl⟩
      rfl
  | some st =>
    constructor
    · intro e; cases st <;> cases e
    · rintro ⟨hw, -⟩
      have : dataCheck s.params ea bs.length true = none :=
        dataCheck_eq_none.mpr ⟨hw.1, fun k hk => (hw.2 k hk).1, fun _ k hk => (hw.2 k hk).2⟩
      rw [this] at h; cases h

/-- The datum of a readable byte. -/
theorem memRead8_of_readable {s : State} {ea : Word} {b0 : Byte} (h : Readable s ea [b0]) :
    memRead8 s ea = .ok b0 := by
  have hc : dataCheck s.params ea 1 false = none :=
    dataCheck_eq_none.mpr ⟨h.1, fun k hk => (h.2 k hk).1, by simp⟩
  have h0 : s.byteAt ea = some b0 := by simpa using (h.2 0 (by simp)).2
  simp [memRead8, hc, h0]

/-- The datum of a readable half word, big-endian. -/
theorem memRead16_of_readable {s : State} {ea : Word} {b0 b1 : Byte} (h : Readable s ea [b0, b1]) :
    memRead16 s ea = .ok (b0 ++ b1) := by
  have hc : dataCheck s.params ea 2 false = none :=
    dataCheck_eq_none.mpr ⟨h.1, fun k hk => (h.2 k hk).1, by simp⟩
  have h0 : s.byteAt ea = some b0 := by simpa using (h.2 0 (by simp)).2
  have h1 : s.byteAt (ea + 1) = some b1 := by simpa using (h.2 1 (by simp)).2
  simp only [memRead16, hc, h0, h1]

/-- The datum of a readable word, big-endian. -/
theorem memRead32_of_readable {s : State} {ea : Word} {b0 b1 b2 b3 : Byte} (h : Readable s ea [b0, b1, b2, b3]) :
    memRead32 s ea = .ok (b0 ++ b1 ++ b2 ++ b3) := by
  have hc : dataCheck s.params ea 4 false = none :=
    dataCheck_eq_none.mpr ⟨h.1, fun k hk => (h.2 k hk).1, by simp⟩
  have h0 : s.byteAt ea = some b0 := by simpa using (h.2 0 (by simp)).2
  have h1 : s.byteAt (ea + 1) = some b1 := by simpa using (h.2 1 (by simp)).2
  have h2 : s.byteAt (ea + 2) = some b2 := by simpa using (h.2 2 (by simp)).2
  have h3 : s.byteAt (ea + 3) = some b3 := by simpa using (h.2 3 (by simp)).2
  simp only [memRead32, hc, h0, h1, h2, h3]

/-- Stored bytes keep memory canonical. -/
theorem memory_wf_putBytes {s : State} (ea : Word) (bs : List Byte) (h : Memory.wf s.mem = true) :
    Memory.wf (s.putBytes ea bs).mem = true := by
  induction bs generalizing s ea with
  | nil => exact h
  | cons b bs ih => exact ih (s := s.putByte ea b) (ea + 1) (memory_wf_insertKey h b ea.isLt)

/-- What holds of every listed byte's address and of the stored addresses holds of every listed address after a store. -/
theorem mem_all_putBytes (p : Nat → Bool) {s : State} (ea : Word) (bs : List Byte)
    (h : s.mem.all (fun c => p c.1) = true) (hn : ∀ k, k < bs.length → p (ea + BitVec.ofNat 32 k).toNat = true) :
    (s.putBytes ea bs).mem.all (fun c => p c.1) = true := by
  induction bs generalizing s ea with
  | nil => exact h
  | cons b bs ih =>
    refine ih (s := s.putByte ea b) (ea + 1) (all_insertKey _ h ?_) ?_
    · simpa using hn 0 (by simp)
    · intro k hk
      rw [addr_succ]
      exact hn (k + 1) (by simpa using hk)

end Sys2Proof.Machine
end

