-- ==== Sys2Proof/Laws/Effects.lean ====
section
/-! SUPPORT. What each shared operation can do, said once: each shape of effect with its frame, and the inversions "if it
answers a next state, then". -/

namespace Sys2Proof.Machine

open Sys2Proof

theorem Stop.out_ne_next (st : Stop) (t : State) : st.out ≠ .next t := by
  cases st <;> simp [Stop.out]

theorem writeReg_sameMemory (s : State) (a : RegNo) (v : Word) : SameMemory s (s.writeReg a v) :=
  fun x => State.byteAt_congr (by simp) (by simp) x

theorem writeReg_sameSpecials (s : State) (a : RegNo) (v : Word) : SameSpecials s (s.writeReg a v) :=
  fun n => State.readSpr_congr (by simp) n

/-- `x[a] <- v` and nothing else. -/
theorem regResult_writeReg (s : State) (a : RegNo) (v : Word) : RegResult s a v (.next (s.writeReg a v)) :=
  ⟨_, rfl, State.readReg_writeReg_same s a v, fun _ h => State.readReg_writeReg_other s v h,
    writeReg_sameMemory s a v, writeReg_sameSpecials s a v, ⟨by simp, by simp⟩, ⟨by simp, by simp⟩,
    ⟨by simp, by simp⟩, by simp⟩

theorem regResult_writeResult (s : State) (a : RegNo) (v : Word) : RegResult s a v (writeResult s a v) :=
  regResult_writeReg s a v

theorem flagResult_compareRegs (rel : Word → Word → Bool) (a b : RegNo) (s : State) :
    FlagResult s (rel (s.readReg a) (s.readReg b)) (compareRegs rel a b s) :=
  ⟨_, rfl, rfl, rfl, fun _ => rfl, fun _ => rfl, fun _ => rfl, ⟨rfl, rfl⟩, ⟨rfl, rfl⟩, rfl⟩

/-- `delayed` answers a next state exactly where no slot is open and a taken target is even; the slot is its whole effect. -/
theorem delayed_eq_next {taken : Bool} {target d : Word} {s t : State} :
    delayed taken target d s = .next t ↔
      s.dslot = none ∧ (taken = true → target.getLsbD 0 = false) ∧
        t = { s with dslot := some ⟨if taken then some target else none, d + 4⟩ } := by
  unfold delayed
  cases hd : s.dslot with
  | some _ => simp
  | none =>
    cases taken with
    | false => simp [@eq_comm _ t]
    | true => cases ht : target.getLsbD 0 <;> simp [@eq_comm _ t]

/-- A jump or branch in an open slot is refused (R30). -/
theorem delayed_in_slot {s : State} {sl : Slot} (h : s.dslot = some sl) (taken : Bool) (target d : Word) :
    delayed taken target d s = .refused .controlTransferInDelaySlot := by
  simp [delayed, h]

theorem slotResult_delayed {s : State} (h : s.dslot = none) {taken : Bool} {target : Word} (d : Word)
    (he : taken = true → target.getLsbD 0 = false) :
    SlotResult s ⟨if taken then some target else none, d + 4⟩ (delayed taken target d s) :=
  ⟨_, delayed_eq_next.mpr ⟨h, he, rfl⟩, rfl, rfl, fun _ => rfl, fun _ => rfl, fun _ => rfl, ⟨rfl, rfl⟩, ⟨rfl, rfl⟩, rfl⟩

theorem linkResult_jumpAndLink {s : State} (h : s.dslot = none) {target : Word} (d : Word)
    (he : target.getLsbD 0 = false) :
    LinkResult s ⟨some target, d + 4⟩ (d + 4) (jumpAndLink target d s) := by
  refine ⟨_, delayed_eq_next.mpr ⟨by simpa using h, fun _ => he, rfl⟩, rfl, ?_, ?_, by simp, ?_, ?_,
    ⟨by simp, by simp⟩, ⟨by simp, by simp⟩, by simp⟩
  · exact State.readReg_writeReg_same s _ _
  · exact fun r hr => State.readReg_writeReg_other s _ hr
  · exact writeReg_sameMemory s _ _
  · exact writeReg_sameSpecials s _ _

theorem storeResult_memWrite {s : State} {ea : Word} {bs : List Byte} (h : Writable s ea bs.length)
    (hl : bs.length ≤ 4294967296) : StoreResult s ea bs (memWrite s ea bs) :=
  ⟨_, memWrite_eq_next.mpr ⟨h, rfl⟩,
    fun _ hk => State.byteAt_putBytes_same s ea bs hl (fun j hj => (h.2 j hj).2) hk,
    fun _ hx => State.byteAt_putBytes_other s ea bs hx,
    fun r => State.readReg_congr (by simp) (by simp) r, fun n => State.readSpr_congr (by simp) n,
    ⟨by simp, by simp⟩, ⟨by simp, by simp⟩, ⟨by simp, by simp⟩, by simp⟩

theorem loadInto_eq_next {s t : State} {a : RegNo} {r : Except Stop Word} :
    loadInto s a r = .next t ↔ ∃ v, r = .ok v ∧ t = s.writeReg a v := by
  cases r with
  | ok v => simp [loadInto, eq_comm]
  | error st => simp [loadInto, Stop.out_ne_next]

theorem needClass2_eq_next {insn : Code} {s t : State} {r : Result} :
    needClass2 insn s r = .next t ↔ s.params.implClass2 = true ∧ r = .next t := by
  unfold needClass2; split <;> simp_all [raiseIllegalInstruction]

theorem needClass3_eq_next {insn : Code} {s t : State} {r : Result} :
    needClass3 insn s r = .next t ↔ s.params.implClass3 = true ∧ r = .next t := by
  unfold needClass3; split <;> simp_all [raiseIllegalInstruction]

theorem needSupervisor_eq_next {s t : State} {r : Result} :
    needSupervisor s r = .next t ↔ s.mode = .supervisor ∧ r = .next t := by
  unfold needSupervisor; split <;> simp_all

theorem needPlainSpr_eq_next {n : SprNo} {s t : State} {r : Result} :
    needPlainSpr n s r = .next t ↔ n ∈ s.params.sprPlain ∧ r = .next t := by
  unfold needPlainSpr; split <;> simp_all

/-- Everything an instruction can do when it completes: one constructor per shape of effect. -/
inductive Effect (i : Instr) (s : State) : State → Prop where
  | none : Effect i s s
  | reg (a : RegNo) (v : Word) : Effect i s (s.writeReg a v)
  | flag (h : isCompare i = true) (b : Bool) : Effect i s { s with flag := b }
  | quotient (a : RegNo) (q : Option Word) (d : Word) (h : divisorOf i s = some d) :
      Effect i s ((s.writeQuotient a q).noteDivisor d)
  | store (ea : Word) (bs : List Byte) (h : accessOf i s = some (ea, bs.length, true))
      (hw : Writable s ea bs.length) : Effect i s (s.putBytes ea bs)
  | special (n : SprNo) (a : RegNo) (h : i = .lMtsr n a) (hm : s.mode = .supervisor) (v : Word) :
      Effect i s (s.writeSpr n v)
  | slot (h : isTransfer i = true) (hd : s.dslot = none) (target : Option Word)
      (he : ∀ x, target = some x → x.getLsbD 0 = false) :
      Effect i s { s with dslot := some ⟨target, s.pc + (encode i).len + 4⟩ }
  | link (h : isTransfer i = true) (hd : s.dslot = none) (target : Word) (he : target.getLsbD 0 = false) (v : Word) :
      Effect i s { s.writeReg s.params.linkReg v with dslot := some ⟨some target, s.pc + (encode i).len + 4⟩ }

theorem Effect.of_writeResult {i : Instr} {s t : State} {a : RegNo} {v : Word} (h : writeResult s a v = .next t) :
    Effect i s t := by
  cases h; exact .reg a v

theorem Effect.of_loadInto {i : Instr} {s t : State} {a : RegNo} {r : Except Stop Word}
    (h : loadInto s a r = .next t) : Effect i s t := by
  obtain ⟨v, -, rfl⟩ := loadInto_eq_next.mp h; exact .reg a v

theorem Effect.of_compareRegs {i : Instr} {s t : State} {rel : Word → Word → Bool} {a b : RegNo}
    (hc : isCompare i = true) (h : compareRegs rel a b s = .next t) : Effect i s t := by
  cases h; exact .flag hc _

theorem Effect.of_memWrite {i : Instr} {s t : State} {ea : Word} {bs : List Byte}
    (ha : accessOf i s = some (ea, bs.length, true)) (h : memWrite s ea bs = .next t) : Effect i s t := by
  obtain ⟨hw, rfl⟩ := memWrite_eq_next.mp h; exact .store ea bs ha hw

theorem Effect.of_delayed {i : Instr} {s t : State} {taken : Bool} {target d : Word} (hi : isTransfer i = true)
    (hd : d = s.pc + (encode i).len) (h : delayed taken target d s = .next t) : Effect i s t := by
  obtain ⟨hs, he, rfl⟩ := delayed_eq_next.mp h
  subst hd
  refine .slot hi hs _ ?_
  cases taken with
  | false => simp
  | true => rintro x ⟨⟩; exact he rfl

theorem Effect.of_jumpAndLink {i : Instr} {s t : State} {target d : Word} (hi : isTransfer i = true)
    (hd : d = s.pc + (encode i).len) (h : jumpAndLink target d s = .next t) : Effect i s t := by
  obtain ⟨hs, he, rfl⟩ := delayed_eq_next.mp h
  subst hd
  exact .link hi (by simpa using hs) target (he rfl) _

/-- An instruction that completes does one of the things of `Effect`. -/
theorem exec_next {i : Instr} {s t : State} (h : exec i s = .next t) : Effect i s t := by
  cases i with
  | lIllegal => cases h
  | lJ x => exact .of_delayed rfl rfl h
  | lJal x => exact .of_jumpAndLink rfl rfl h
  | lBnf x => exact .of_delayed rfl rfl h
  | lBf x => exact .of_delayed rfl rfl h
  | lLoad32u a b j => exact .of_loadInto h
  | lLoad16u a b j => exact .of_loadInto h
  | lLoad16s a b j => exact .of_loadInto h
  | lLoad8u a b j => exact .of_loadInto h
  | lLoad8s a b j => exact .of_loadInto h
  | lStor32 a b j => exact .of_memWrite rfl h
  | lStor16 a b j => exact .of_memWrite rfl h
  | lStor8 a b j => exact .of_memWrite rfl h
  | lAddi32s a b imm => exact .of_writeResult h
  | lSubi32s a b imm => exact .of_writeResult h
  | lMuli32s a b imm => exact .of_writeResult (needClass2_eq_next.mp h).2
  | lXori16 a b imm => exact .of_writeResult (needClass3_eq_next.mp h).2
  | lImmlo16u a imm => exact .of_writeResult h
  | lImmhi16u a imm => exact .of_writeResult h
  | lSub32s a b c => exact .of_writeResult h
  | lShla32 a b c l => exact .of_writeResult h
  | lShra32 a b c l => exact .of_writeResult h
  | lShrl32 a b c l => exact .of_writeResult h
  | lAnd32 a b c => exact .of_writeResult h
  | lOr32 a b c => exact .of_writeResult h
  | lXor32 a b c => exact .of_writeResult h
  | lMul32s a b c => exact .of_writeResult (needClass2_eq_next.mp h).2
  | lMul32u a b c => exact .of_writeResult (needClass2_eq_next.mp h).2
  | lDiv32s a b c => cases (needClass3_eq_next.mp h).2; exact .quotient a _ _ rfl
  | lDiv32u a b c => cases (needClass3_eq_next.mp h).2; exact .quotient a _ _ rfl
  | lDcbf a j => cases (needSupervisor_eq_next.mp h).2
  | lDcbt a j => cases (needSupervisor_eq_next.mp h).2
  | lDcbi a j => cases (needSupervisor_eq_next.mp h).2
  | lDcia => cases (needSupervisor_eq_next.mp h).2
  | lDcfa => cases (needSupervisor_eq_next.mp h).2
  | lTlbia => cases (needSupervisor_eq_next.mp h).2
  | lMtsr n a =>
    obtain ⟨hm, h⟩ := needSupervisor_eq_next.mp h
    cases (needPlainSpr_eq_next.mp h).2
    exact .special n a rfl hm _
  | lMfsr a n => exact .of_writeResult (needPlainSpr_eq_next.mp (needSupervisor_eq_next.mp h).2).2
  | hSfeq32 a b => exact .of_compareRegs rfl h
  | hSfne32 a b => exact .of_compareRegs rfl h
  | hSfgt32s a b => exact .of_compareRegs rfl h
  | hSfge32s a b => exact .of_compareRegs rfl h
  | hSflt32s a b => exact .of_compareRegs rfl h
  | hSfle32s a b => exact .of_compareRegs rfl h
  | hSfgt32u a b => exact .of_compareRegs rfl h
  | hSfge32u a b => exact .of_compareRegs rfl h
  | hSflt32u a b => exact .of_compareRegs rfl h
  | hSfle32u a b => exact .of_compareRegs rfl h
  | hMov32 a b => exact .of_writeResult (needClass2_eq_next.mp h).2
  | hExt16s a => exact .of_writeResult (needClass2_eq_next.mp h).2
  | hExt16z a => exact .of_writeResult (needClass2_eq_next.mp h).2
  | hExt8s a => exact .of_writeResult (needClass2_eq_next.mp h).2
  | hExt8z a => exact .of_writeResult (needClass2_eq_next.mp h).2
  | hNop => cases h; exact .none
  | hJalr a => exact .of_jumpAndLink rfl rfl h
  | hLoad32u a b n => exact .of_loadInto (needClass2_eq_next.mp h).2
  | hStor32 a b n => exact .of_memWrite rfl (needClass2_eq_next.mp h).2
  | hAdd32s a b d => exact .of_writeResult h
  | hImmch32s a m => exact .of_writeResult (needClass2_eq_next.mp h).2
  | hJal9 x => exact .of_jumpAndLink rfl rfl (needClass2_eq_next.mp h).2
  | hJalA x => exact .of_jumpAndLink rfl rfl (needClass2_eq_next.mp h).2
  | hBnf x => exact .of_delayed rfl rfl (needClass2_eq_next.mp h).2
  | hBf x => exact .of_delayed rfl rfl (needClass2_eq_next.mp h).2
  | hSched z => cases (needClass3_eq_next.mp h).2; exact .none

/-! ### What every completed instruction leaves alone -/

theorem Effect.pc {i : Instr} {s t : State} (h : Effect i s t) : t.pc = s.pc := by
  cases h <;> simp

theorem Effect.mode {i : Instr} {s t : State} (h : Effect i s t) : t.mode = s.mode := by
  cases h <;> simp

theorem Effect.params {i : Instr} {s t : State} (h : Effect i s t) : t.params = s.params := by
  cases h <;> simp

/-- An open slot stays as it is: no instruction that opens one completes in it (R30). -/
theorem Effect.dslot_of_open {i : Instr} {s t : State} (h : Effect i s t) {d : Slot} (hd : s.dslot = some d) :
    t.dslot = some d := by
  cases h with
  | slot _ hn => rw [hn] at hd; cases hd
  | link _ hn => rw [hn] at hd; cases hd
  | _ => simpa using hd

/-! ### The cycle: each way `front` can end, and the step that follows from it -/

theorem step_over {s : State} (h : s.runOver = true) : step s = .next s := by
  simp [step, front, h]

theorem step_fetch_error {s : State} (h : s.runOver = false) {r : Refusal} (hf : fetch s s.pc = .error r) :
    step s = .refused r := by
  simp [step, front, h, hf]

theorem step_overrun {s : State} (h : s.runOver = false) {c : Code} (hf : fetch s s.pc = .ok c)
    (ho : slotOverrun s c.len = true) : step s = .refused .delaySlotOverrun := by
  simp [step, front, h, hf, ho]

theorem step_decode_error {s : State} (h : s.runOver = false) {c : Code} (hf : fetch s s.pc = .ok c)
    (ho : slotOverrun s c.len = false) {e : DecodeError} (hd : decode c = .error e) :
    step s = if e = .reservedField then .refused .reservedFieldNonZero else raiseIllegalInstruction c s := by
  cases e <;> simp [step, front, h, hf, ho, hd]

theorem step_run {s : State} (h : s.runOver = false) {c : Code} (hf : fetch s s.pc = .ok c)
    (ho : slotOverrun s c.len = false) {i : Instr} (hd : decode c = .ok i) :
    step s = retire s c.len (exec i s) := by
  simp [step, front, h, hf, ho, hd]

theorem retire_eq_next {s u : State} {len : Word} {o : Result} :
    retire s len o = .next u ↔ ∃ t, o = .next t ∧ u = advance s len t := by
  cases o <;> simp [retire, @eq_comm _ u]

/-- A completed step: the run was over and stays, or the instruction at the pc completed and the cycle ended. -/
theorem step_next {s u : State} (h : step s = .next u) :
    (s.runOver = true ∧ u = s) ∨
      ∃ c i t, fetch s s.pc = .ok c ∧ decode c = .ok i ∧ slotOverrun s c.len = false ∧ exec i s = .next t ∧
        u = advance s c.len t := by
  cases hr : s.runOver with
  | true =>
    rw [step_over hr] at h
    cases h
    exact .inl ⟨rfl, rfl⟩
  | false =>
    right
    cases hf : fetch s s.pc with
    | error r => rw [step_fetch_error hr hf] at h; cases h
    | ok c =>
      cases ho : slotOverrun s c.len with
      | true => rw [step_overrun hr hf ho] at h; cases h
      | false =>
        cases hd : decode c with
        | error e =>
          rw [step_decode_error hr hf ho hd] at h
          split at h <;> cases h
        | ok i =>
          rw [step_run hr hf ho hd] at h
          obtain ⟨t, ht, rfl⟩ := retire_eq_next.mp h
          exact ⟨c, i, t, rfl, hd, ho, ht, rfl⟩

end Sys2Proof.Machine
end

