-- ==== Sys2Proof/Laws/Encoding.lean ====
section
/-! SUPPORT. What each field of a word put together by an encoder is, and a word put together again from its fields. -/

namespace Sys2Proof

/-- A field that lies in the upper part of a concatenation. -/
theorem extract_hi {v w start len : Nat} (x : BitVec v) (y : BitVec w) (h : w ≤ start) :
    (x ++ y).extractLsb' start len = x.extractLsb' (start - w) len :=
  BitVec.extractLsb'_append_eq_of_le h

/-- A field that lies in the lower part of a concatenation. -/
theorem extract_lo {v w start len : Nat} (x : BitVec v) (y : BitVec w) (h : start + len ≤ w) :
    (x ++ y).extractLsb' start len = y.extractLsb' start len :=
  BitVec.extractLsb'_append_eq_of_add_le h

/-- A part of a part. -/
theorem extract_extract {n s l s' l' : Nat} (x : BitVec n) (h : s' + l' ≤ l) :
    (x.extractLsb' s l).extractLsb' s' l' = x.extractLsb' (s + s') l' := by
  apply BitVec.eq_of_getLsbD_eq
  intro i hi
  simp only [BitVec.getLsbD_extractLsb', hi, decide_true, Bool.true_and]
  have : s' + i < l := by omega
  simp [this, Nat.add_assoc]

/-- Two adjacent parts are one part. -/
theorem extract_join {n : Nat} (x : BitVec n) (s l m : Nat) :
    x.extractLsb' (s + m) l ++ x.extractLsb' s m = x.extractLsb' s (l + m) := by
  apply BitVec.eq_of_getLsbD_eq
  intro i hi
  simp only [BitVec.getLsbD_append, BitVec.getLsbD_extractLsb']
  by_cases h : i < m
  · simp [h, hi]
  · have h1 : i - m < l := by omega
    have h2 : s + m + (i - m) = s + i := by omega
    simp [h, h1, h2, hi]

/-- The whole of a word. -/
theorem extract_all {n : Nat} (x : BitVec n) : x.extractLsb' 0 n = x :=
  BitVec.extractLsb'_eq_self

/-- The fields of a word of `encLX`. -/
theorem fields_encLX (op : BitVec 6) (x : BitVec 26) :
    op6 (op ++ x) = op ∧
    immX26 (op ++ x) = x :=
  ⟨(Eq.trans (extract_hi _ _ (by decide)) (extract_all _)),
  (Eq.trans (extract_lo _ _ (by decide)) (extract_all _))⟩

/-- The fields of a word of `encLLS`. -/
theorem fields_encLLS (op : BitVec 7) (a b : RegNo) (j : BitVec 17) :
    op6 (op ++ j.extractLsb' 16 1 ++ a ++ b ++ j.extractLsb' 0 16) = op.extractLsb' 1 6 ∧
    BitVec.extractLsb' 25 1 (op ++ j.extractLsb' 16 1 ++ a ++ b ++ j.extractLsb' 0 16) = op.extractLsb' 0 1 ∧
    fieldA (op ++ j.extractLsb' 16 1 ++ a ++ b ++ j.extractLsb' 0 16) = a ∧
    fieldB (op ++ j.extractLsb' 16 1 ++ a ++ b ++ j.extractLsb' 0 16) = b ∧
    immJ17 (op ++ j.extractLsb' 16 1 ++ a ++ b ++ j.extractLsb' 0 16) = j :=
  ⟨(Eq.trans (extract_hi _ _ (by decide)) (Eq.trans (extract_hi _ _ (by decide)) (Eq.trans (extract_hi _ _ (by decide)) (extract_hi _ _ (by decide))))),
  (Eq.trans (extract_hi _ _ (by decide)) (Eq.trans (extract_hi _ _ (by decide)) (Eq.trans (extract_hi _ _ (by decide)) (extract_hi _ _ (by decide))))),
  (Eq.trans (extract_hi _ _ (by decide)) (Eq.trans (extract_hi _ _ (by decide)) (Eq.trans (extract_lo _ _ (by decide)) (extract_all _)))),
  (Eq.trans (extract_hi _ _ (by decide)) (Eq.trans (extract_lo _ _ (by decide)) (extract_all _))),
  by
    have h1 : BitVec.extractLsb' 24 1 (op ++ j.extractLsb' 16 1 ++ a ++ b ++ j.extractLsb' 0 16) = BitVec.extractLsb' 16 1 j := (Eq.trans (extract_hi _ _ (by decide)) (Eq.trans (extract_hi _ _ (by decide)) (Eq.trans (extract_hi _ _ (by decide)) (Eq.trans (extract_lo _ _ (by decide)) (extract_all _)))))
    have h2 : BitVec.extractLsb' 0 16 (op ++ j.extractLsb' 16 1 ++ a ++ b ++ j.extractLsb' 0 16) = BitVec.extractLsb' 0 16 j := (Eq.trans (extract_lo _ _ (by decide)) (extract_all _))
    unfold immJ17
    rw [h1, h2]
    exact (extract_join j 0 1 16).trans (extract_all j)⟩

/-- The fields of a word of `encLI18`. -/
theorem fields_encLI18 (op : BitVec 6) (a b : RegNo) (i : BitVec 18) :
    op6 (op ++ i.extractLsb' 16 2 ++ a ++ b ++ i.extractLsb' 0 16) = op ∧
    fieldA (op ++ i.extractLsb' 16 2 ++ a ++ b ++ i.extractLsb' 0 16) = a ∧
    fieldB (op ++ i.extractLsb' 16 2 ++ a ++ b ++ i.extractLsb' 0 16) = b ∧
    immI18 (op ++ i.extractLsb' 16 2 ++ a ++ b ++ i.extractLsb' 0 16) = i :=
  ⟨(Eq.trans (extract_hi _ _ (by decide)) (Eq.trans (extract_hi _ _ (by decide)) (Eq.trans (extract_hi _ _ (by decide)) (Eq.trans (extract_hi _ _ (by decide)) (extract_all _))))),
  (Eq.trans (extract_hi _ _ (by decide)) (Eq.trans (extract_hi _ _ (by decide)) (Eq.trans (extract_lo _ _ (by decide)) (extract_all _)))),
  (Eq.trans (extract_hi _ _ (by decide)) (Eq.trans (extract_lo _ _ (by decide)) (extract_all _))),
  by
    have h1 : BitVec.extractLsb' 24 2 (op ++ i.extractLsb' 16 2 ++ a ++ b ++ i.extractLsb' 0 16) = BitVec.extractLsb' 16 2 i := (Eq.trans (extract_hi _ _ (by decide)) (Eq.trans (extract_hi _ _ (by decide)) (Eq.trans (extract_hi _ _ (by decide)) (Eq.trans (extract_lo _ _ (by decide)) (extract_all _)))))
    have h2 : BitVec.extractLsb' 0 16 (op ++ i.extractLsb' 16 2 ++ a ++ b ++ i.extractLsb' 0 16) = BitVec.extractLsb' 0 16 i := (Eq.trans (extract_lo _ _ (by decide)) (extract_all _))
    unfold immI18
    rw [h1, h2]
    exact (extract_join i 0 2 16).trans (extract_all i)⟩

/-- The fields of a word of `encLI16`. -/
theorem fields_encLI16 (op : BitVec 8) (a b : RegNo) (i : BitVec 16) :
    op6 (op ++ a ++ b ++ i) = op.extractLsb' 2 6 ∧
    BitVec.extractLsb' 24 2 (op ++ a ++ b ++ i) = op.extractLsb' 0 2 ∧
    fieldA (op ++ a ++ b ++ i) = a ∧
    fieldB (op ++ a ++ b ++ i) = b ∧
    BitVec.extractLsb' 16 4 (op ++ a ++ b ++ i) = b ∧
    immI16 (op ++ a ++ b ++ i) = i :=
  ⟨(Eq.trans (extract_hi _ _ (by decide)) (Eq.trans (extract_hi _ _ (by decide)) (extract_hi _ _ (by decide)))),
  (Eq.trans (extract_hi _ _ (by decide)) (Eq.trans (extract_hi _ _ (by decide)) (extract_hi _ _ (by decide)))),
  (Eq.trans (extract_hi _ _ (by decide)) (Eq.trans (extract_hi _ _ (by decide)) (Eq.trans (extract_lo _ _ (by decide)) (extract_all _)))),
  (Eq.trans (extract_hi _ _ (by decide)) (Eq.trans (extract_lo _ _ (by decide)) (extract_all _))),
  (Eq.trans (extract_hi _ _ (by decide)) (Eq.trans (extract_lo _ _ (by decide)) (extract_all _))),
  (Eq.trans (extract_lo _ _ (by decide)) (extract_all _))⟩

/-- The fields of a word of `encLR`. -/
theorem fields_encLR (op : BitVec 4) (a b c : RegNo) :
    op6 (0x2C#8 ++ a ++ b ++ c ++ op ++ 0#8) = 0x0B#6 ∧
    BitVec.extractLsb' 24 2 (0x2C#8 ++ a ++ b ++ c ++ op ++ 0#8) = 0#2 ∧
    minor (0x2C#8 ++ a ++ b ++ c ++ op ++ 0#8) = op ∧
    fieldA (0x2C#8 ++ a ++ b ++ c ++ op ++ 0#8) = a ∧
    fieldB (0x2C#8 ++ a ++ b ++ c ++ op ++ 0#8) = b ∧
    fieldC (0x2C#8 ++ a ++ b ++ c ++ op ++ 0#8) = c ∧
    BitVec.extractLsb' 0 8 (0x2C#8 ++ a ++ b ++ c ++ op ++ 0#8) = 0#8 :=
  ⟨(Eq.trans (extract_hi _ _ (by decide)) (Eq.trans (extract_hi _ _ (by decide)) (Eq.trans (extract_hi _ _ (by decide)) (Eq.trans (extract_hi _ _ (by decide)) (extract_hi _ _ (by decide)))))),
  (Eq.trans (extract_hi _ _ (by decide)) (Eq.trans (extract_hi _ _ (by decide)) (Eq.trans (extract_hi _ _ (by decide)) (Eq.trans (extract_hi _ _ (by decide)) (extract_hi _ _ (by decide)))))),
  (Eq.trans (extract_hi _ _ (by decide)) (Eq.trans (extract_lo _ _ (by decide)) (extract_all _))),
  (Eq.trans (extract_hi _ _ (by decide)) (Eq.trans (extract_hi _ _ (by decide)) (Eq.trans (extract_hi _ _ (by decide)) (Eq.trans (extract_hi _ _ (by decide)) (Eq.trans (extract_lo _ _ (by decide)) (extract_all _)))))),
  (Eq.trans (extract_hi _ _ (by decide)) (Eq.trans (extract_hi _ _ (by decide)) (Eq.trans (extract_hi _ _ (by decide)) (Eq.trans (extract_lo _ _ (by decide)) (extract_all _))))),
  (Eq.trans (extract_hi _ _ (by decide)) (Eq.trans (extract_hi _ _ (by decide)) (Eq.trans (extract_lo _ _ (by decide)) (extract_all _)))),
  (Eq.trans (extract_lo _ _ (by decide)) (extract_all _))⟩

/-- The fields of a word of `encLRL`. -/
theorem fields_encLRL (op : BitVec 4) (a b c : RegNo) (l : BitVec 5) :
    op6 (0x2C#8 ++ a ++ b ++ c ++ op ++ l ++ 0#3) = 0x0B#6 ∧
    BitVec.extractLsb' 24 2 (0x2C#8 ++ a ++ b ++ c ++ op ++ l ++ 0#3) = 0#2 ∧
    minor (0x2C#8 ++ a ++ b ++ c ++ op ++ l ++ 0#3) = op ∧
    fieldA (0x2C#8 ++ a ++ b ++ c ++ op ++ l ++ 0#3) = a ∧
    fieldB (0x2C#8 ++ a ++ b ++ c ++ op ++ l ++ 0#3) = b ∧
    fieldC (0x2C#8 ++ a ++ b ++ c ++ op ++ l ++ 0#3) = c ∧
    immL5 (0x2C#8 ++ a ++ b ++ c ++ op ++ l ++ 0#3) = l ∧
    BitVec.extractLsb' 0 3 (0x2C#8 ++ a ++ b ++ c ++ op ++ l ++ 0#3) = 0#3 :=
  ⟨(Eq.trans (extract_hi _ _ (by decide)) (Eq.trans (extract_hi _ _ (by decide)) (Eq.trans (extract_hi _ _ (by decide)) (Eq.trans (extract_hi _ _ (by decide)) (Eq.trans (extract_hi _ _ (by decide)) (extract_hi _ _ (by decide))))))),
  (Eq.trans (extract_hi _ _ (by decide)) (Eq.trans (extract_hi _ _ (by decide)) (Eq.trans (extract_hi _ _ (by decide)) (Eq.trans (extract_hi _ _ (by decide)) (Eq.trans (extract_hi _ _ (by decide)) (extract_hi _ _ (by decide))))))),
  (Eq.trans (extract_hi _ _ (by decide)) (Eq.trans (extract_hi _ _ (by decide)) (Eq.trans (extract_lo _ _ (by decide)) (extract_all _)))),
  (Eq.trans (extract_hi _ _ (by decide)) (Eq.trans (extract_hi _ _ (by decide)) (Eq.trans (extract_hi _ _ (by decide)) (Eq.trans (extract_hi _ _ (by decide)) (Eq.trans (extract_hi _ _ (by decide)) (Eq.trans (extract_lo _ _ (by decide)) (extract_all _))))))),
  (Eq.trans (extract_hi _ _ (by decide)) (Eq.trans (extract_hi _ _ (by decide)) (Eq.trans (extract_hi _ _ (by decide)) (Eq.trans (extract_hi _ _ (by decide)) (Eq.trans (extract_lo _ _ (by decide)) (extract_all _)))))),
  (Eq.trans (extract_hi _ _ (by decide)) (Eq.trans (extract_hi _ _ (by decide)) (Eq.trans (extract_hi _ _ (by decide)) (Eq.trans (extract_lo _ _ (by decide)) (extract_all _))))),
  (Eq.trans (extract_hi _ _ (by decide)) (Eq.trans (extract_lo _ _ (by decide)) (extract_all _))),
  (Eq.trans (extract_lo _ _ (by decide)) (extract_all _))⟩

/-- The fields of a word of `encLS`. -/
theorem fields_encLS (op : BitVec 4) (a : RegNo) (j : BitVec 16) :
    op6 (0x30#8 ++ a ++ j.extractLsb' 8 8 ++ op ++ j.extractLsb' 0 8) = 0x0C#6 ∧
    BitVec.extractLsb' 24 2 (0x30#8 ++ a ++ j.extractLsb' 8 8 ++ op ++ j.extractLsb' 0 8) = 0#2 ∧
    minor (0x30#8 ++ a ++ j.extractLsb' 8 8 ++ op ++ j.extractLsb' 0 8) = op ∧
    fieldA (0x30#8 ++ a ++ j.extractLsb' 8 8 ++ op ++ j.extractLsb' 0 8) = a ∧
    immS16 (0x30#8 ++ a ++ j.extractLsb' 8 8 ++ op ++ j.extractLsb' 0 8) = j :=
  ⟨(Eq.trans (extract_hi _ _ (by decide)) (Eq.trans (extract_hi _ _ (by decide)) (Eq.trans (extract_hi _ _ (by decide)) (extract_hi _ _ (by decide))))),
  (Eq.trans (extract_hi _ _ (by decide)) (Eq.trans (extract_hi _ _ (by decide)) (Eq.trans (extract_hi _ _ (by decide)) (extract_hi _ _ (by decide))))),
  (Eq.trans (extract_hi _ _ (by decide)) (Eq.trans (extract_lo _ _ (by decide)) (extract_all _))),
  (Eq.trans (extract_hi _ _ (by decide)) (Eq.trans (extract_hi _ _ (by decide)) (Eq.trans (extract_hi _ _ (by decide)) (Eq.trans (extract_lo _ _ (by decide)) (extract_all _))))),
  by
    have h1 : BitVec.extractLsb' 12 8 (0x30#8 ++ a ++ j.extractLsb' 8 8 ++ op ++ j.extractLsb' 0 8) = BitVec.extractLsb' 8 8 j := (Eq.trans (extract_hi _ _ (by decide)) (Eq.trans (extract_hi _ _ (by decide)) (Eq.trans (extract_lo _ _ (by decide)) (extract_all _))))
    have h2 : BitVec.extractLsb' 0 8 (0x30#8 ++ a ++ j.extractLsb' 8 8 ++ op ++ j.extractLsb' 0 8) = BitVec.extractLsb' 0 8 j := (Eq.trans (extract_lo _ _ (by decide)) (extract_all _))
    unfold immS16
    rw [h1, h2]
    exact (extract_join j 0 8 8).trans (extract_all j)⟩

/-- The fields of a word of `encHRR`. -/
theorem fields_encHRR (op : BitVec 8) (a b : RegNo) :
    BitVec.extractLsb' 12 4 (op ++ a ++ b) = op.extractLsb' 4 4 ∧
    BitVec.extractLsb' 8 4 (op ++ a ++ b) = op.extractLsb' 0 4 ∧
    hA (op ++ a ++ b) = a ∧
    hB (op ++ a ++ b) = b :=
  ⟨(Eq.trans (extract_hi _ _ (by decide)) (extract_hi _ _ (by decide))),
  (Eq.trans (extract_hi _ _ (by decide)) (extract_hi _ _ (by decide))),
  (Eq.trans (extract_hi _ _ (by decide)) (Eq.trans (extract_lo _ _ (by decide)) (extract_all _))),
  (Eq.trans (extract_lo _ _ (by decide)) (extract_all _))⟩

/-- The fields of a word of `encHR1`. -/
theorem fields_encHR1 (op : BitVec 3) (a : RegNo) :
    BitVec.extractLsb' 12 4 (0x4B#8 ++ a ++ 0#1 ++ op) = 0x4#4 ∧
    BitVec.extractLsb' 8 4 (0x4B#8 ++ a ++ 0#1 ++ op) = 0xB#4 ∧
    hA (0x4B#8 ++ a ++ 0#1 ++ op) = a ∧
    BitVec.extractLsb' 3 1 (0x4B#8 ++ a ++ 0#1 ++ op) = 0#1 ∧
    BitVec.extractLsb' 0 3 (0x4B#8 ++ a ++ 0#1 ++ op) = op :=
  ⟨(Eq.trans (extract_hi _ _ (by decide)) (Eq.trans (extract_hi _ _ (by decide)) (extract_hi _ _ (by decide)))),
  (Eq.trans (extract_hi _ _ (by decide)) (Eq.trans (extract_hi _ _ (by decide)) (extract_hi _ _ (by decide)))),
  (Eq.trans (extract_hi _ _ (by decide)) (Eq.trans (extract_hi _ _ (by decide)) (Eq.trans (extract_lo _ _ (by decide)) (extract_all _)))),
  (Eq.trans (extract_hi _ _ (by decide)) (Eq.trans (extract_lo _ _ (by decide)) (extract_all _))),
  (Eq.trans (extract_lo _ _ (by decide)) (extract_all _))⟩

/-- The fields of a word of `encHNRR`. -/
theorem fields_encHNRR (op n : BitVec 4) (a b : RegNo) :
    BitVec.extractLsb' 12 4 (op ++ n ++ a ++ b) = op ∧
    hN (op ++ n ++ a ++ b) = n ∧
    hA (op ++ n ++ a ++ b) = a ∧
    hB (op ++ n ++ a ++ b) = b :=
  ⟨(Eq.trans (extract_hi _ _ (by decide)) (Eq.trans (extract_hi _ _ (by decide)) (Eq.trans (extract_hi _ _ (by decide)) (extract_all _)))),
  (Eq.trans (extract_hi _ _ (by decide)) (Eq.trans (extract_hi _ _ (by decide)) (Eq.trans (extract_lo _ _ (by decide)) (extract_all _)))),
  (Eq.trans (extract_hi _ _ (by decide)) (Eq.trans (extract_lo _ _ (by decide)) (extract_all _))),
  (Eq.trans (extract_lo _ _ (by decide)) (extract_all _))⟩

/-- The fields of a word of `encHM`. -/
theorem fields_encHM (op a : BitVec 4) (m : BitVec 8) :
    BitVec.extractLsb' 12 4 (op ++ m.extractLsb' 4 4 ++ a ++ m.extractLsb' 0 4) = op ∧
    hA (op ++ m.extractLsb' 4 4 ++ a ++ m.extractLsb' 0 4) = a ∧
    hM (op ++ m.extractLsb' 4 4 ++ a ++ m.extractLsb' 0 4) = m :=
  ⟨(Eq.trans (extract_hi _ _ (by decide)) (Eq.trans (extract_hi _ _ (by decide)) (Eq.trans (extract_hi _ _ (by decide)) (extract_all _)))),
  (Eq.trans (extract_hi _ _ (by decide)) (Eq.trans (extract_lo _ _ (by decide)) (extract_all _))),
  by
    have h1 : BitVec.extractLsb' 8 4 (op ++ m.extractLsb' 4 4 ++ a ++ m.extractLsb' 0 4) = BitVec.extractLsb' 4 4 m := (Eq.trans (extract_hi _ _ (by decide)) (Eq.trans (extract_hi _ _ (by decide)) (Eq.trans (extract_lo _ _ (by decide)) (extract_all _))))
    have h2 : BitVec.extractLsb' 0 4 (op ++ m.extractLsb' 4 4 ++ a ++ m.extractLsb' 0 4) = BitVec.extractLsb' 0 4 m := (Eq.trans (extract_lo _ _ (by decide)) (extract_all _))
    unfold hM
    rw [h1, h2]
    exact (extract_join m 0 4 4).trans (extract_all m)⟩

/-- The fields of a word of `encHX`. -/
theorem fields_encHX (op : BitVec 4) (x : BitVec 12) :
    BitVec.extractLsb' 12 4 (op ++ x) = op ∧
    hX (op ++ x) = x :=
  ⟨(Eq.trans (extract_hi _ _ (by decide)) (extract_all _)),
  (Eq.trans (extract_lo _ _ (by decide)) (extract_all _))⟩

/-! ### A word put together again from its fields -/

theorem join_encLX (w : Word) : op6 w ++ immX26 w = w :=
  (extract_join w 0 6 26).trans (extract_all w)

theorem join_encLLS (w : Word) :
    w.extractLsb' 25 7 ++ (immJ17 w).extractLsb' 16 1 ++ fieldA w ++ fieldB w ++ (immJ17 w).extractLsb' 0 16 = w := by
  have h1 : (immJ17 w).extractLsb' 16 1 = w.extractLsb' 24 1 := (extract_hi _ _ (by decide)).trans (extract_all _)
  have h2 : (immJ17 w).extractLsb' 0 16 = w.extractLsb' 0 16 := (extract_lo _ _ (by decide)).trans (extract_all _)
  rw [h1, h2, extract_join w 24 7 1]
  unfold fieldA fieldB
  rw [extract_join w 20 8 4, extract_join w 16 12 4, extract_join w 0 16 16]
  exact extract_all w

theorem join_encLI18 (w : Word) :
    op6 w ++ (immI18 w).extractLsb' 16 2 ++ fieldA w ++ fieldB w ++ (immI18 w).extractLsb' 0 16 = w := by
  have h1 : (immI18 w).extractLsb' 16 2 = w.extractLsb' 24 2 := (extract_hi _ _ (by decide)).trans (extract_all _)
  have h2 : (immI18 w).extractLsb' 0 16 = w.extractLsb' 0 16 := (extract_lo _ _ (by decide)).trans (extract_all _)
  rw [h1, h2]
  unfold op6 fieldA fieldB
  rw [extract_join w 24 6 2, extract_join w 20 8 4, extract_join w 16 12 4, extract_join w 0 16 16]
  exact extract_all w

theorem join_encLI16 (w : Word) : w.extractLsb' 24 8 ++ fieldA w ++ fieldB w ++ immI16 w = w := by
  unfold fieldA fieldB immI16
  rw [extract_join w 20 8 4, extract_join w 16 12 4, extract_join w 0 16 16]
  exact extract_all w

theorem join_encLR (w : Word) :
    w.extractLsb' 24 8 ++ fieldA w ++ fieldB w ++ fieldC w ++ minor w ++ w.extractLsb' 0 8 = w := by
  unfold fieldA fieldB fieldC minor
  rw [extract_join w 20 8 4, extract_join w 16 12 4, extract_join w 12 16 4, extract_join w 8 20 4, extract_join w 0 24 8]
  exact extract_all w

theorem join_encLRL (w : Word) :
    w.extractLsb' 24 8 ++ fieldA w ++ fieldB w ++ fieldC w ++ minor w ++ immL5 w ++ w.extractLsb' 0 3 = w := by
  unfold fieldA fieldB fieldC minor immL5
  rw [extract_join w 20 8 4, extract_join w 16 12 4, extract_join w 12 16 4, extract_join w 8 20 4, extract_join w 3 24 5,
    extract_join w 0 29 3]
  exact extract_all w

theorem join_encLS (w : Word) :
    w.extractLsb' 24 8 ++ fieldA w ++ (immS16 w).extractLsb' 8 8 ++ minor w ++ (immS16 w).extractLsb' 0 8 = w := by
  have h1 : (immS16 w).extractLsb' 8 8 = w.extractLsb' 12 8 := (extract_hi _ _ (by decide)).trans (extract_all _)
  have h2 : (immS16 w).extractLsb' 0 8 = w.extractLsb' 0 8 := (extract_lo _ _ (by decide)).trans (extract_all _)
  rw [h1, h2]
  unfold fieldA minor
  rw [extract_join w 20 8 4, extract_join w 12 12 8, extract_join w 8 20 4, extract_join w 0 24 8]
  exact extract_all w

theorem join_encHRR (h : Half) : h.extractLsb' 8 8 ++ hA h ++ hB h = h := by
  unfold hA hB
  rw [extract_join h 4 8 4, extract_join h 0 12 4]
  exact extract_all h

theorem join_encHR1 (h : Half) : h.extractLsb' 8 8 ++ hA h ++ h.extractLsb' 3 1 ++ h.extractLsb' 0 3 = h := by
  unfold hA
  rw [extract_join h 4 8 4, extract_join h 3 12 1, extract_join h 0 13 3]
  exact extract_all h

theorem join_encHNRR (h : Half) : h.extractLsb' 12 4 ++ hN h ++ hA h ++ hB h = h := by
  unfold hN hA hB
  rw [extract_join h 8 4 4, extract_join h 4 8 4, extract_join h 0 12 4]
  exact extract_all h

theorem join_encHM (h : Half) :
    h.extractLsb' 12 4 ++ (hM h).extractLsb' 4 4 ++ hA h ++ (hM h).extractLsb' 0 4 = h := by
  have h1 : (hM h).extractLsb' 4 4 = h.extractLsb' 8 4 := (extract_hi _ _ (by decide)).trans (extract_all _)
  have h2 : (hM h).extractLsb' 0 4 = h.extractLsb' 0 4 := (extract_lo _ _ (by decide)).trans (extract_all _)
  rw [h1, h2]
  unfold hA
  rw [extract_join h 8 4 4, extract_join h 4 8 4, extract_join h 0 12 4]
  exact extract_all h

theorem join_encHX (h : Half) : h.extractLsb' 12 4 ++ hX h = h :=
  (extract_join h 0 4 12).trans (extract_all h)

/-! ### The two most significant bits, which tell the length (R61) -/

theorem top_encLX (op : BitVec 6) (x : BitVec 26) :
    BitVec.extractLsb' 30 2 (op ++ x) = op.extractLsb' 4 2 :=
  (extract_hi _ _ (by decide))

theorem top_encLLS (op : BitVec 7) (a b : RegNo) (j : BitVec 17) :
    BitVec.extractLsb' 30 2 (op ++ j.extractLsb' 16 1 ++ a ++ b ++ j.extractLsb' 0 16) = op.extractLsb' 5 2 :=
  (Eq.trans (extract_hi _ _ (by decide)) (Eq.trans (extract_hi _ _ (by decide)) (Eq.trans (extract_hi _ _ (by decide)) (extract_hi _ _ (by decide)))))

theorem top_encLI18 (op : BitVec 6) (a b : RegNo) (i : BitVec 18) :
    BitVec.extractLsb' 30 2 (op ++ i.extractLsb' 16 2 ++ a ++ b ++ i.extractLsb' 0 16) = op.extractLsb' 4 2 :=
  (Eq.trans (extract_hi _ _ (by decide)) (Eq.trans (extract_hi _ _ (by decide)) (Eq.trans (extract_hi _ _ (by decide)) (extract_hi _ _ (by decide)))))

theorem top_encLI16 (op : BitVec 8) (a b : RegNo) (i : BitVec 16) :
    BitVec.extractLsb' 30 2 (op ++ a ++ b ++ i) = op.extractLsb' 6 2 :=
  (Eq.trans (extract_hi _ _ (by decide)) (Eq.trans (extract_hi _ _ (by decide)) (extract_hi _ _ (by decide))))

theorem top_encLR (op : BitVec 4) (a b c : RegNo) :
    BitVec.extractLsb' 30 2 (0x2C#8 ++ a ++ b ++ c ++ op ++ 0#8) = 0#2 :=
  (Eq.trans (extract_hi _ _ (by decide)) (Eq.trans (extract_hi _ _ (by decide)) (Eq.trans (extract_hi _ _ (by decide)) (Eq.trans (extract_hi _ _ (by decide)) (extract_hi _ _ (by decide))))))

theorem top_encLRL (op : BitVec 4) (a b c : RegNo) (l : BitVec 5) :
    BitVec.extractLsb' 30 2 (0x2C#8 ++ a ++ b ++ c ++ op ++ l ++ 0#3) = 0#2 :=
  (Eq.trans (extract_hi _ _ (by decide)) (Eq.trans (extract_hi _ _ (by decide)) (Eq.trans (extract_hi _ _ (by decide)) (Eq.trans (extract_hi _ _ (by decide)) (Eq.trans (extract_hi _ _ (by decide)) (extract_hi _ _ (by decide)))))))

theorem top_encLS (op : BitVec 4) (a : RegNo) (j : BitVec 16) :
    BitVec.extractLsb' 30 2 (0x30#8 ++ a ++ j.extractLsb' 8 8 ++ op ++ j.extractLsb' 0 8) = 0#2 :=
  (Eq.trans (extract_hi _ _ (by decide)) (Eq.trans (extract_hi _ _ (by decide)) (Eq.trans (extract_hi _ _ (by decide)) (extract_hi _ _ (by decide)))))

theorem top_encHRR (op : BitVec 8) (a b : RegNo) :
    BitVec.extractLsb' 14 2 (op ++ a ++ b) = op.extractLsb' 6 2 :=
  (Eq.trans (extract_hi _ _ (by decide)) (extract_hi _ _ (by decide)))

theorem top_encHR1 (op : BitVec 3) (a : RegNo) :
    BitVec.extractLsb' 14 2 (0x4B#8 ++ a ++ 0#1 ++ op) = 1#2 :=
  (Eq.trans (extract_hi _ _ (by decide)) (Eq.trans (extract_hi _ _ (by decide)) (extract_hi _ _ (by decide))))

theorem top_encHNRR (op n : BitVec 4) (a b : RegNo) :
    BitVec.extractLsb' 14 2 (op ++ n ++ a ++ b) = op.extractLsb' 2 2 :=
  (Eq.trans (extract_hi _ _ (by decide)) (Eq.trans (extract_hi _ _ (by decide)) (extract_hi _ _ (by decide))))

theorem top_encHX (op : BitVec 4) (x : BitVec 12) :
    BitVec.extractLsb' 14 2 (op ++ x) = op.extractLsb' 2 2 :=
  (extract_hi _ _ (by decide))

end Sys2Proof
end

