-- ==== Sys2Proof/Laws/Faults.lean ====
section
/-! SUPPORT. The inversions "if it faults, then": which faults each shared operation has, and which an instruction has. -/

namespace Sys2Proof.Machine

open Sys2Proof

/-- The stops of the tests of a data access (R227 item 15). -/
theorem dataCheck_stop {p : Params} {ea : Word} {n : Nat} {store : Bool} {st : Stop}
    (h : dataCheck p ea n store = some st) :
    st = .fault .misaligned ∨ st = .refused .outsideRam ∨ st = .refused .storeToText := by
  unfold dataCheck at h
  repeat' split at h
  · cases h; exact .inl rfl
  · cases h; exact .inr (.inl rfl)
  · cases h; exact .inr (.inr rfl)
  · cases h

theorem memWrite_eq_fault {s : State} {ea : Word} {bs : List Byte} {f : Fault} (h : memWrite s ea bs = .fault f) :
    f = .misaligned := by
  unfold memWrite at h
  split at h
  · next hc => rcases dataCheck_stop hc with rfl | rfl | rfl <;> cases h; rfl
  · cases h

/-- A stop of a load. -/
def LoadStop (st : Stop) : Prop :=
  st = .fault .misaligned ∨ st = .fault .unwrittenRead ∨ ∃ r, st = .refused r

theorem loadStop_of_dataCheck {p : Params} {ea : Word} {n : Nat} {store : Bool} {st : Stop}
    (h : dataCheck p ea n store = some st) : LoadStop st := by
  rcases dataCheck_stop h with rfl | rfl | rfl
  · exact .inl rfl
  · exact .inr (.inr ⟨_, rfl⟩)
  · exact .inr (.inr ⟨_, rfl⟩)

theorem memRead8_error {s : State} {ea : Word} {st : Stop} (h : memRead8 s ea = .error st) : LoadStop st := by
  unfold memRead8 at h
  split at h
  · next hc => cases h; exact loadStop_of_dataCheck hc
  · split at h <;> cases h
    exact .inr (.inl rfl)

theorem memRead16_error {s : State} {ea : Word} {st : Stop} (h : memRead16 s ea = .error st) : LoadStop st := by
  unfold memRead16 at h
  split at h
  · next hc => cases h; exact loadStop_of_dataCheck hc
  · split at h <;> cases h
    exact .inr (.inl rfl)

theorem memRead32_error {s : State} {ea : Word} {st : Stop} (h : memRead32 s ea = .error st) : LoadStop st := by
  unfold memRead32 at h
  split at h
  · next hc => cases h; exact loadStop_of_dataCheck hc
  · split at h <;> cases h
    exact .inr (.inl rfl)

theorem map_error {α β : Type} {r : Except Stop α} {g : α → β} {st : Stop} (h : r.map g = .error st) :
    r = .error st := by
  cases r with
  | ok v => cases h
  | error e => cases h; rfl

theorem loadInto_eq_fault {s : State} {a : RegNo} {r : Except Stop Word} {f : Fault} (h : loadInto s a r = .fault f)
    (hr : ∀ st, r = .error st → LoadStop st) : f = .misaligned ∨ f = .unwrittenRead := by
  cases r with
  | ok v => cases h
  | error st =>
    rcases hr st rfl with rfl | rfl | ⟨_, rfl⟩
    · cases h; exact .inl rfl
    · cases h; exact .inr rfl
    · cases h

theorem delayed_ne_fault {taken : Bool} {target d : Word} {s : State} {f : Fault} :
    delayed taken target d s ≠ .fault f := by
  unfold delayed
  split
  · exact fun h => by cases h
  · split <;> exact fun h => by cases h

theorem needClass2_eq_fault {insn : Code} {s : State} {r : Result} {f : Fault} (h : needClass2 insn s r = .fault f) :
    s.params.implClass2 = false ∨ r = .fault f := by
  unfold needClass2 at h
  split at h
  · exact .inr h
  · next hc => exact .inl (Bool.eq_false_iff.mpr hc)

theorem needClass3_eq_fault {insn : Code} {s : State} {r : Result} {f : Fault} (h : needClass3 insn s r = .fault f) :
    s.params.implClass3 = false ∨ r = .fault f := by
  unfold needClass3 at h
  split at h
  · exact .inr h
  · next hc => exact .inl (Bool.eq_false_iff.mpr hc)

theorem needSupervisor_eq_fault {s : State} {r : Result} {f : Fault} (h : needSupervisor s r = .fault f) :
    (s.mode = .user ∧ f = .privilegeViolation) ∨ r = .fault f := by
  unfold needSupervisor at h
  split at h
  · exact .inr h
  · next hm => cases h; exact .inl ⟨hm, rfl⟩

/-- Why an instruction faults. -/
inductive FaultCause (i : Instr) (s : State) : Fault → Prop where
  | illegal (h : i = .lIllegal) (f : Fault) : FaultCause i s f
  | classOff (h : ¬classOn i s) (f : Fault) : FaultCause i s f
  | privilege (h : 4 ≤ insnClass i) (hm : s.mode = .user) : FaultCause i s .privilegeViolation
  | misaligned : FaultCause i s .misaligned
  | unwrittenRead : FaultCause i s .unwrittenRead

theorem FaultCause.of_load {i : Instr} {s : State} {f : Fault} (h : f = .misaligned ∨ f = .unwrittenRead) :
    FaultCause i s f := by
  rcases h with rfl | rfl
  · exact .misaligned
  · exact .unwrittenRead

theorem FaultCause.of_store {i : Instr} {s : State} {f : Fault} (h : f = .misaligned) : FaultCause i s f := by
  subst h; exact .misaligned

theorem FaultCause.of_class2 {i : Instr} {s : State} (hi : insnClass i = 2) (h : s.params.implClass2 = false)
    (f : Fault) : FaultCause i s f :=
  .classOff (fun hc => by rw [hc.1 hi] at h; cases h) f

theorem FaultCause.of_class3 {i : Instr} {s : State} (hi : insnClass i = 3) (h : s.params.implClass3 = false)
    (f : Fault) : FaultCause i s f :=
  .classOff (fun hc => by rw [hc.2 hi] at h; cases h) f

/-- An instruction that faults does so for one of the causes of `FaultCause`. -/
theorem exec_fault {i : Instr} {s : State} {f : Fault} (h : exec i s = .fault f) : FaultCause i s f := by
  cases i with
  | lIllegal => exact .illegal rfl f
  | lJ x | lJal x | lBnf x | lBf x | hJalr x => exact absurd h delayed_ne_fault
  | hJal9 x | hJalA x | hBnf x | hBf x =>
    rcases needClass2_eq_fault h with hc | h
    · exact .of_class2 rfl hc f
    · exact absurd h delayed_ne_fault
  | lLoad32u a b j => exact .of_load (loadInto_eq_fault h fun _ e => memRead32_error e)
  | lLoad16u a b j | lLoad16s a b j => exact .of_load (loadInto_eq_fault h fun _ e => memRead16_error (map_error e))
  | lLoad8u a b j | lLoad8s a b j => exact .of_load (loadInto_eq_fault h fun _ e => memRead8_error (map_error e))
  | lStor32 a b j | lStor16 a b j | lStor8 a b j => exact .of_store (memWrite_eq_fault h)
  | hLoad32u a b n =>
    rcases needClass2_eq_fault h with hc | h
    · exact .of_class2 rfl hc f
    · exact .of_load (loadInto_eq_fault h fun _ e => memRead32_error e)
  | hStor32 a b n =>
    rcases needClass2_eq_fault h with hc | h
    · exact .of_class2 rfl hc f
    · exact .of_store (memWrite_eq_fault h)
  | lMuli32s a b c | lMul32s a b c | lMul32u a b c | hMov32 a b | hExt16s a | hExt16z a | hExt8s a | hExt8z a
  | hImmch32s a m =>
    rcases needClass2_eq_fault h with hc | h
    · exact .of_class2 rfl hc f
    · cases h
  | lXori16 a b c | lDiv32s a b c | lDiv32u a b c | hSched z =>
    rcases needClass3_eq_fault h with hc | h
    · exact .of_class3 rfl hc f
    · cases h
  | lDcbf a j | lDcbt a j | lDcbi a j | lDcia | lDcfa | lTlbia =>
    rcases needSupervisor_eq_fault h with ⟨hm, rfl⟩ | h
    · exact .privilege (by simp [insnClass]) hm
    · cases h
  | lMtsr a j | lMfsr a j =>
    rcases needSupervisor_eq_fault h with ⟨hm, rfl⟩ | h
    · exact .privilege (by simp [insnClass]) hm
    · unfold needPlainSpr at h
      split at h <;> cases h
  | _ => cases h

end Sys2Proof.Machine
end

