-- ==== Sys2Proof/Laws/PerInstr.lean ====
section
/-! SUPPORT. Statements made of every instruction, one lemma per constructor. -/

namespace Sys2Proof.Laws

/-- R61: "every `l.` entry has a first byte in 0x00..0x30 and every `h.` entry a first byte in 0x40..0xFF", so the two most
significant bits of an encoding tell its length. -/
def Length.Statement (i : Instr) : Prop :=
  match encode i with
  | .word w => w.extractLsb' 30 2 = 0
  | .half h => h.extractLsb' 14 2 ≠ 0

theorem Length.lIllegal : Length.Statement .lIllegal :=
  rfl
theorem Length.lJ : ∀ x0, Length.Statement (.lJ x0) :=
  fun _ => (top_encLX _ _).trans rfl
theorem Length.lJal : ∀ x0, Length.Statement (.lJal x0) :=
  fun _ => (top_encLX _ _).trans rfl
theorem Length.lBnf : ∀ x0, Length.Statement (.lBnf x0) :=
  fun _ => (top_encLX _ _).trans rfl
theorem Length.lBf : ∀ x0, Length.Statement (.lBf x0) :=
  fun _ => (top_encLX _ _).trans rfl
theorem Length.lLoad32u : ∀ x0 x1 x2, Length.Statement (.lLoad32u x0 x1 x2) :=
  fun _ _ _ => (top_encLLS _ _ _ _).trans rfl
theorem Length.lLoad16u : ∀ x0 x1 x2, Length.Statement (.lLoad16u x0 x1 x2) :=
  fun _ _ _ => (top_encLLS _ _ _ _).trans rfl
theorem Length.lLoad16s : ∀ x0 x1 x2, Length.Statement (.lLoad16s x0 x1 x2) :=
  fun _ _ _ => (top_encLLS _ _ _ _).trans rfl
theorem Length.lLoad8u : ∀ x0 x1 x2, Length.Statement (.lLoad8u x0 x1 x2) :=
  fun _ _ _ => (top_encLLS _ _ _ _).trans rfl
theorem Length.lLoad8s : ∀ x0 x1 x2, Length.Statement (.lLoad8s x0 x1 x2) :=
  fun _ _ _ => (top_encLLS _ _ _ _).trans rfl
theorem Length.lStor32 : ∀ x0 x1 x2, Length.Statement (.lStor32 x0 x1 x2) :=
  fun _ _ _ => (top_encLLS _ _ _ _).trans rfl
theorem Length.lStor16 : ∀ x0 x1 x2, Length.Statement (.lStor16 x0 x1 x2) :=
  fun _ _ _ => (top_encLLS _ _ _ _).trans rfl
theorem Length.lStor8 : ∀ x0 x1 x2, Length.Statement (.lStor8 x0 x1 x2) :=
  fun _ _ _ => (top_encLLS _ _ _ _).trans rfl
theorem Length.lAddi32s : ∀ x0 x1 x2, Length.Statement (.lAddi32s x0 x1 x2) :=
  fun _ _ _ => (top_encLI18 _ _ _ _).trans rfl
theorem Length.lSubi32s : ∀ x0 x1 x2, Length.Statement (.lSubi32s x0 x1 x2) :=
  fun _ _ _ => (top_encLI18 _ _ _ _).trans rfl
theorem Length.lMuli32s : ∀ x0 x1 x2, Length.Statement (.lMuli32s x0 x1 x2) :=
  fun _ _ _ => (top_encLI16 _ _ _ _).trans rfl
theorem Length.lXori16 : ∀ x0 x1 x2, Length.Statement (.lXori16 x0 x1 x2) :=
  fun _ _ _ => (top_encLI16 _ _ _ _).trans rfl
theorem Length.lImmlo16u : ∀ x0 x1, Length.Statement (.lImmlo16u x0 x1) :=
  fun _ _ => (top_encLI16 _ _ _ _).trans rfl
theorem Length.lImmhi16u : ∀ x0 x1, Length.Statement (.lImmhi16u x0 x1) :=
  fun _ _ => (top_encLI16 _ _ _ _).trans rfl
theorem Length.lSub32s : ∀ x0 x1 x2, Length.Statement (.lSub32s x0 x1 x2) :=
  fun _ _ _ => top_encLR _ _ _ _
theorem Length.lShla32 : ∀ x0 x1 x2 x3, Length.Statement (.lShla32 x0 x1 x2 x3) :=
  fun _ _ _ _ => top_encLRL _ _ _ _ _
theorem Length.lShra32 : ∀ x0 x1 x2 x3, Length.Statement (.lShra32 x0 x1 x2 x3) :=
  fun _ _ _ _ => top_encLRL _ _ _ _ _
theorem Length.lShrl32 : ∀ x0 x1 x2 x3, Length.Statement (.lShrl32 x0 x1 x2 x3) :=
  fun _ _ _ _ => top_encLRL _ _ _ _ _
theorem Length.lAnd32 : ∀ x0 x1 x2, Length.Statement (.lAnd32 x0 x1 x2) :=
  fun _ _ _ => top_encLR _ _ _ _
theorem Length.lOr32 : ∀ x0 x1 x2, Length.Statement (.lOr32 x0 x1 x2) :=
  fun _ _ _ => top_encLR _ _ _ _
theorem Length.lXor32 : ∀ x0 x1 x2, Length.Statement (.lXor32 x0 x1 x2) :=
  fun _ _ _ => top_encLR _ _ _ _
theorem Length.lMul32s : ∀ x0 x1 x2, Length.Statement (.lMul32s x0 x1 x2) :=
  fun _ _ _ => top_encLR _ _ _ _
theorem Length.lMul32u : ∀ x0 x1 x2, Length.Statement (.lMul32u x0 x1 x2) :=
  fun _ _ _ => top_encLR _ _ _ _
theorem Length.lDiv32s : ∀ x0 x1 x2, Length.Statement (.lDiv32s x0 x1 x2) :=
  fun _ _ _ => top_encLR _ _ _ _
theorem Length.lDiv32u : ∀ x0 x1 x2, Length.Statement (.lDiv32u x0 x1 x2) :=
  fun _ _ _ => top_encLR _ _ _ _
theorem Length.lDcbf : ∀ x0 x1, Length.Statement (.lDcbf x0 x1) :=
  fun _ _ => top_encLS _ _ _
theorem Length.lDcbt : ∀ x0 x1, Length.Statement (.lDcbt x0 x1) :=
  fun _ _ => top_encLS _ _ _
theorem Length.lDcbi : ∀ x0 x1, Length.Statement (.lDcbi x0 x1) :=
  fun _ _ => top_encLS _ _ _
theorem Length.lDcia : Length.Statement .lDcia :=
  top_encLS _ _ _
theorem Length.lDcfa : Length.Statement .lDcfa :=
  top_encLS _ _ _
theorem Length.lTlbia : Length.Statement .lTlbia :=
  top_encLS _ _ _
theorem Length.lMtsr : ∀ x0 x1, Length.Statement (.lMtsr x0 x1) :=
  fun _ _ => top_encLS _ _ _
theorem Length.lMfsr : ∀ x0 x1, Length.Statement (.lMfsr x0 x1) :=
  fun _ _ => top_encLS _ _ _
theorem Length.hSfeq32 : ∀ x0 x1, Length.Statement (.hSfeq32 x0 x1) :=
  fun _ _ => fun e => absurd ((top_encHRR _ _ _).symm.trans e) (by decide)
theorem Length.hSfne32 : ∀ x0 x1, Length.Statement (.hSfne32 x0 x1) :=
  fun _ _ => fun e => absurd ((top_encHRR _ _ _).symm.trans e) (by decide)
theorem Length.hSfgt32s : ∀ x0 x1, Length.Statement (.hSfgt32s x0 x1) :=
  fun _ _ => fun e => absurd ((top_encHRR _ _ _).symm.trans e) (by decide)
theorem Length.hSfge32s : ∀ x0 x1, Length.Statement (.hSfge32s x0 x1) :=
  fun _ _ => fun e => absurd ((top_encHRR _ _ _).symm.trans e) (by decide)
theorem Length.hSflt32s : ∀ x0 x1, Length.Statement (.hSflt32s x0 x1) :=
  fun _ _ => fun e => absurd ((top_encHRR _ _ _).symm.trans e) (by decide)
theorem Length.hSfle32s : ∀ x0 x1, Length.Statement (.hSfle32s x0 x1) :=
  fun _ _ => fun e => absurd ((top_encHRR _ _ _).symm.trans e) (by decide)
theorem Length.hSfgt32u : ∀ x0 x1, Length.Statement (.hSfgt32u x0 x1) :=
  fun _ _ => fun e => absurd ((top_encHRR _ _ _).symm.trans e) (by decide)
theorem Length.hSfge32u : ∀ x0 x1, Length.Statement (.hSfge32u x0 x1) :=
  fun _ _ => fun e => absurd ((top_encHRR _ _ _).symm.trans e) (by decide)
theorem Length.hSflt32u : ∀ x0 x1, Length.Statement (.hSflt32u x0 x1) :=
  fun _ _ => fun e => absurd ((top_encHRR _ _ _).symm.trans e) (by decide)
theorem Length.hSfle32u : ∀ x0 x1, Length.Statement (.hSfle32u x0 x1) :=
  fun _ _ => fun e => absurd ((top_encHRR _ _ _).symm.trans e) (by decide)
theorem Length.hMov32 : ∀ x0 x1, Length.Statement (.hMov32 x0 x1) :=
  fun _ _ => fun e => absurd ((top_encHRR _ _ _).symm.trans e) (by decide)
theorem Length.hExt16s : ∀ x0, Length.Statement (.hExt16s x0) :=
  fun _ => fun e => absurd ((top_encHR1 _ _).symm.trans e) (by decide)
theorem Length.hExt16z : ∀ x0, Length.Statement (.hExt16z x0) :=
  fun _ => fun e => absurd ((top_encHR1 _ _).symm.trans e) (by decide)
theorem Length.hExt8s : ∀ x0, Length.Statement (.hExt8s x0) :=
  fun _ => fun e => absurd ((top_encHR1 _ _).symm.trans e) (by decide)
theorem Length.hExt8z : ∀ x0, Length.Statement (.hExt8z x0) :=
  fun _ => fun e => absurd ((top_encHR1 _ _).symm.trans e) (by decide)
theorem Length.hNop : Length.Statement .hNop :=
  fun e => absurd e (by decide)
theorem Length.hJalr : ∀ x0, Length.Statement (.hJalr x0) :=
  fun _ => fun e => absurd ((top_encHR1 _ _).symm.trans e) (by decide)
theorem Length.hLoad32u : ∀ x0 x1 x2, Length.Statement (.hLoad32u x0 x1 x2) :=
  fun _ _ _ => fun e => absurd ((top_encHNRR _ _ _ _).symm.trans e) (by decide)
theorem Length.hStor32 : ∀ x0 x1 x2, Length.Statement (.hStor32 x0 x1 x2) :=
  fun _ _ _ => fun e => absurd ((top_encHNRR _ _ _ _).symm.trans e) (by decide)
theorem Length.hAdd32s : ∀ x0 x1 x2, Length.Statement (.hAdd32s x0 x1 x2) :=
  fun _ _ _ => fun e => absurd ((top_encHNRR _ _ _ _).symm.trans e) (by decide)
theorem Length.hImmch32s : ∀ x0 x1, Length.Statement (.hImmch32s x0 x1) :=
  fun _ _ => fun e => absurd ((top_encHNRR _ _ _ _).symm.trans e) (by decide)
theorem Length.hJal9 : ∀ x0, Length.Statement (.hJal9 x0) :=
  fun _ => fun e => absurd ((top_encHX _ _).symm.trans e) (by decide)
theorem Length.hJalA : ∀ x0, Length.Statement (.hJalA x0) :=
  fun _ => fun e => absurd ((top_encHX _ _).symm.trans e) (by decide)
theorem Length.hBnf : ∀ x0, Length.Statement (.hBnf x0) :=
  fun _ => fun e => absurd ((top_encHX _ _).symm.trans e) (by decide)
theorem Length.hBf : ∀ x0, Length.Statement (.hBf x0) :=
  fun _ => fun e => absurd ((top_encHX _ _).symm.trans e) (by decide)
theorem Length.hSched : ∀ x0, Length.Statement (.hSched x0) :=
  fun _ => fun e => absurd ((top_encHX _ _).symm.trans e) (by decide)

end Sys2Proof.Laws
end

