-- ==== Sys2Proof/Tests/Slice0.lean ====
section
/-! SUPPORT. Tests by `decide`: the well-formedness check, decoding of words written out in 95_test_vectors.md section 3.1, one
step on small states (the vectors of sections 3.2 to 3.10), and for every statement with hypotheses a witness that meets
them. -/

namespace Sys2Proof.Tests

open Sys2Proof Sys2Proof.Machine

/-! ### Small states -/

/-- The reset state with some registers given. -/
def st (regs : List (RegNo × Word)) : State :=
  regs.foldl (fun s r => s.writeReg r.1 r.2) State.reset

def State.at (s : State) (pc : Word) : State := { s with pc := pc }
def State.flagged (s : State) (b : Bool) : State := { s with flag := b }
def State.slotted (s : State) (target : Option Word) (fin : Word) : State := { s with dslot := some ⟨target, fin⟩ }
def State.user (s : State) : State := { s with mode := .user }
def State.having (s : State) (f : Params → Params) : State := { s with params := f s.params }
def noClasses (p : Params) : Params := { p with implClass2 := false, implClass3 := false }
def smallRam (p : Params) : Params := { p with ram := [⟨0, 0x10000⟩] }
def plain (p : Params) : Params := { p with sprPlain := [0x1234] }

def bytesOf : Code → List Byte
  | .half h => bytes16 h
  | .word w => bytes32 w

/-- The instruction placed at the pc. -/
def put (c : Code) (s : State) : State := placeText s (bytesOf c)
/-- One step of the instruction placed at the pc. -/
def run (c : Code) (s : State) : Result := step (put c s)
/-- What `f` sees of a next state. -/
def obs {α : Type} (f : State → α) : Result → Option α
  | .next t => some (f t)
  | _ => none
def faultOf : Result → Option Fault
  | .fault f => some f
  | _ => none
def refusalOf : Result → Option Refusal
  | .refused r => some r
  | _ => none
/-- "bytes 80 91 A1 B2 at 40..43, 7F FF at 50..51" (section 3.3). -/
def withData (s : State) : State := (s.putBytes 0x40 [0x80, 0x91, 0xA1, 0xB2]).putBytes 0x50 [0x7F, 0xFF]


/-! ### Well-formedness (30_encoding.md R78) -/

theorem test_wf_refuses_lJ_zero : (Instr.lJ 0).wf = false := by decide
theorem test_wf_admits_lJ_one : (Instr.lJ 1).wf = true ∧ (Instr.lJ 0x3FFFFFF).wf = true := by decide

/-! ### Decoding: the words of 95_test_vectors.md section 3.1, every constructor -/

theorem test_decode_lIllegal : decode (.word 0x00000000) = .ok .lIllegal := by decide
theorem test_decode_lJ : decode (.word 0x00000005) = .ok (.lJ 5) ∧
    decode (.word 0x03FFFFFF) = .ok (.lJ 0x3FFFFFF) := by decide
theorem test_decode_lJal : decode (.word 0x07FFFFFE) = .ok (.lJal 0x3FFFFFE) := by decide
theorem test_decode_lBnf : decode (.word 0x08000004) = .ok (.lBnf 4) := by decide
theorem test_decode_lBf : decode (.word 0x0FFFFFFF) = .ok (.lBf 0x3FFFFFF) ∧
    decode (.word 0x0DFFFFFF) = .ok (.lBf 0x1FFFFFF) := by decide
theorem test_decode_lLoad32u : decode (.word 0x10320008) = .ok (.lLoad32u 3 2 8) ∧
    decode (.word 0x10FEFFFF) = .ok (.lLoad32u 15 14 0xFFFF) ∧
    decode (.word 0x11FE0000) = .ok (.lLoad32u 15 14 0x10000) := by decide
theorem test_decode_lLoad16u : decode (.word 0x1332FFFE) = .ok (.lLoad16u 3 2 0x1FFFE) := by decide
theorem test_decode_lLoad16s : decode (.word 0x14520002) = .ok (.lLoad16s 5 2 2) := by decide
theorem test_decode_lLoad8u : decode (.word 0x16420003) = .ok (.lLoad8u 4 2 3) := by decide
theorem test_decode_lLoad8s : decode (.word 0x18320000) = .ok (.lLoad8s 3 2 0) := by decide
theorem test_decode_lStor32 : decode (.word 0x1A210000) = .ok (.lStor32 2 1 0) := by decide
theorem test_decode_lStor16 : decode (.word 0x1C210004) = .ok (.lStor16 2 1 4) := by decide
theorem test_decode_lStor8 : decode (.word 0x1FE5FFFF) = .ok (.lStor8 14 5 0x1FFFF) := by decide
theorem test_decode_lAddi32s : decode (.word 0x2312FFFF) = .ok (.lAddi32s 1 2 0x3FFFF) ∧
    decode (.word 0x2112FFFF) = .ok (.lAddi32s 1 2 0x1FFFF) := by decide
theorem test_decode_lSubi32s : decode (.word 0x26120000) = .ok (.lSubi32s 1 2 0x20000) := by decide
theorem test_decode_lMuli32s : decode (.word 0x2845FFFD) = .ok (.lMuli32s 4 5 0xFFFD) := by decide
theorem test_decode_lXori16 : decode (.word 0x29678001) = .ok (.lXori16 6 7 0x8001) := by decide
theorem test_decode_lImmlo16u : decode (.word 0x2A20BEEF) = .ok (.lImmlo16u 2 0xBEEF) := by decide
theorem test_decode_lImmhi16u : decode (.word 0x2B20DEAD) = .ok (.lImmhi16u 2 0xDEAD) := by decide
theorem test_decode_lSub32s : decode (.word 0x2C123000) = .ok (.lSub32s 1 2 3) := by decide
theorem test_decode_lShla32 : decode (.word 0x2C123120) = .ok (.lShla32 1 2 3 4) := by decide
theorem test_decode_lShra32 : decode (.word 0x2C1232F8) = .ok (.lShra32 1 2 3 31) := by decide
theorem test_decode_lShrl32 : decode (.word 0x2CFED300) = .ok (.lShrl32 15 14 13 0) := by decide
theorem test_decode_lAnd32 : decode (.word 0x2C123400) = .ok (.lAnd32 1 2 3) := by decide
theorem test_decode_lOr32 : decode (.word 0x2C123500) = .ok (.lOr32 1 2 3) := by decide
theorem test_decode_lXor32 : decode (.word 0x2C123600) = .ok (.lXor32 1 2 3) := by decide
theorem test_decode_lMul32s : decode (.word 0x2C123700) = .ok (.lMul32s 1 2 3) := by decide
theorem test_decode_lMul32u : decode (.word 0x2C123800) = .ok (.lMul32u 1 2 3) := by decide
theorem test_decode_lDiv32s : decode (.word 0x2C312900) = .ok (.lDiv32s 3 1 2) := by decide
theorem test_decode_lDiv32u : decode (.word 0x2C412A00) = .ok (.lDiv32u 4 1 2) := by decide
theorem test_decode_lDcbf : decode (.word 0x30512034) = .ok (.lDcbf 5 0x1234) := by decide
theorem test_decode_lDcbt : decode (.word 0x30500100) = .ok (.lDcbt 5 0) := by decide
theorem test_decode_lDcbi : decode (.word 0x305FF2FC) = .ok (.lDcbi 5 0xFFFC) := by decide
theorem test_decode_lDcia : decode (.word 0x30000300) = .ok .lDcia := by decide
theorem test_decode_lDcfa : decode (.word 0x30000400) = .ok .lDcfa := by decide
theorem test_decode_lTlbia : decode (.word 0x30000500) = .ok .lTlbia := by decide
theorem test_decode_lMtsr : decode (.word 0x30712634) = .ok (.lMtsr 0x1234 7) := by decide
theorem test_decode_lMfsr : decode (.word 0x307AB7CD) = .ok (.lMfsr 7 0xABCD) := by decide
theorem test_decode_hSfeq32 : decode (.half 0x4012) = .ok (.hSfeq32 1 2) := by decide
theorem test_decode_hSfne32 : decode (.half 0x4123) = .ok (.hSfne32 2 3) := by decide
theorem test_decode_hSfgt32s : decode (.half 0x4212) = .ok (.hSfgt32s 1 2) := by decide
theorem test_decode_hSfge32s : decode (.half 0x4312) = .ok (.hSfge32s 1 2) := by decide
theorem test_decode_hSflt32s : decode (.half 0x4412) = .ok (.hSflt32s 1 2) := by decide
theorem test_decode_hSfle32s : decode (.half 0x4512) = .ok (.hSfle32s 1 2) := by decide
theorem test_decode_hSfgt32u : decode (.half 0x4612) = .ok (.hSfgt32u 1 2) := by decide
theorem test_decode_hSfge32u : decode (.half 0x4712) = .ok (.hSfge32u 1 2) := by decide
theorem test_decode_hSflt32u : decode (.half 0x4812) = .ok (.hSflt32u 1 2) := by decide
theorem test_decode_hSfle32u : decode (.half 0x49F0) = .ok (.hSfle32u 15 0) := by decide
theorem test_decode_hMov32 : decode (.half 0x4AAB) = .ok (.hMov32 10 11) := by decide
theorem test_decode_hExt16s : decode (.half 0x4B30) = .ok (.hExt16s 3) := by decide
theorem test_decode_hExt16z : decode (.half 0x4B31) = .ok (.hExt16z 3) := by decide
theorem test_decode_hExt8s : decode (.half 0x4B32) = .ok (.hExt8s 3) := by decide
theorem test_decode_hExt8z : decode (.half 0x4B33) = .ok (.hExt8z 3) := by decide
theorem test_decode_hNop : decode (.half 0x4B04) = .ok .hNop := by decide
theorem test_decode_hJalr : decode (.half 0x4B95) = .ok (.hJalr 9) := by decide
theorem test_decode_hLoad32u : decode (.half 0x5412) = .ok (.hLoad32u 1 2 4) ∧
    decode (.half 0x5812) = .ok (.hLoad32u 1 2 8) := by decide
theorem test_decode_hStor32 : decode (.half 0x6C27) = .ok (.hStor32 2 7 12) := by decide
theorem test_decode_hAdd32s : decode (.half 0x7312) = .ok (.hAdd32s 1 2 3) := by decide
theorem test_decode_hImmch32s : decode (.half 0x8F5F) = .ok (.hImmch32s 5 0xFF) ∧
    decode (.half 0x875F) = .ok (.hImmch32s 5 0x7F) ∧
    decode (.half 0x8850) = .ok (.hImmch32s 5 0x80) := by decide
theorem test_decode_hJal9 : decode (.half 0x9003) = .ok (.hJal9 3) := by decide
theorem test_decode_hJalA : decode (.half 0xAFFF) = .ok (.hJalA 0xFFF) := by decide
theorem test_decode_hBnf : decode (.half 0xB002) = .ok (.hBnf 2) := by decide
theorem test_decode_hBf : decode (.half 0xCFFD) = .ok (.hBf 0xFFD) ∧
    decode (.half 0xC800) = .ok (.hBf 0x800) := by decide
theorem test_decode_hSched : decode (.half 0xFABC) = .ok (.hSched 0xABC) := by decide
/-- Section 3.1: words that match no row (R80). -/
theorem test_decode_unassigned : ([0x2D000000, 0x2F123456, 0x31000000, 0x3FFFFFFF, 0x2C123B00, 0x2C123F00, 0x30000800, 0x30000F00] : List Word).all
      (fun w => decode (.word w) = .error .unassigned) ∧
    ([0x4C00, 0x4FFF, 0xD000, 0xEFFF, 0x4B06, 0x4B07, 0x4B16] : List Half).all (fun h => decode (.half h) = .error .unassigned) := by decide
/-- Section 3.1: words with a reserved bit (R81). -/
theorem test_decode_reserved : ([0x2A21BEEF, 0x2B2FDEAD, 0x2C123001, 0x2C123480, 0x2C123121, 0x30100300, 0x30001400, 0x30000501] : List Word).all
      (fun w => decode (.word w) = .error .reservedField) ∧
    ([0x4B38, 0x4B9D, 0x4B0C, 0x4B84] : List Half).all (fun h => decode (.half h) = .error .reservedField) := by decide
theorem test_decodeTableWord : decodeTableWord 32 0x2312FFFF = some (.lAddi32s 1 2 0x3FFFF) ∧
    decodeTableWord 16 0x4AAB = some (.hMov32 10 11) ∧ decodeTableWord 16 0x4B06 = none := by decide
theorem test_withFetchWord : obs (·.readReg 1) (step (State.reset.withFetchWord 32 0x2312FFFF)) = some 0xFFFFFFFF ∧
    obs (·.pc) (step (State.reset.withFetchWord 16 0x4B04)) = some 0x1002 := by decide

/-! ### 32-bit control (section 3.2) -/

theorem test_lIllegal_raises : faultOf (run (.word 0x00000000) (State.at State.reset 0x0604)) = some (.illegalInstruction 0x604 (.word 0) 0) := by decide
theorem test_lJ_forward : obs (fun t => (t.dslot, t.pc)) (run (.word 0x00000005) State.reset) = some (some ⟨some 0x1018, 0x1008⟩, 0x1004) := by decide
theorem test_lJ_most_negative : obs (fun t => (t.dslot, t.pc)) (run (.word 0x02000000) (State.at State.reset 0x10000000)) = some (some ⟨some 0x08000004, 0x10000008⟩, 0x10000004) := by decide
theorem test_lJal_links : obs (fun t => (t.dslot, t.pc)) (run (.word 0x07FFFFFE) State.reset) = some (some ⟨some 0xFFC, 0x1008⟩, 0x1004) ∧
    obs (·.readReg 9) (run (.word 0x07FFFFFE) State.reset) = some 0x1008 := by decide
theorem test_lBnf_taken : obs (fun t => (t.dslot, t.pc)) (run (.word 0x08000004) (State.at State.reset 0x2000)) = some (some ⟨some 0x2014, 0x2008⟩, 0x2004) := by decide
theorem test_lBnf_not_taken : obs (fun t => (t.dslot, t.pc)) (run (.word 0x08000004) (State.flagged (State.at State.reset 0x2000) true)) = some (some ⟨none, 0x2008⟩, 0x2004) := by decide
theorem test_lBf_taken : obs (fun t => (t.dslot, t.pc)) (run (.word 0x0FFFFFFF) (State.flagged (State.at State.reset 0x2000) true)) = some (some ⟨some 0x2000, 0x2008⟩, 0x2004) := by decide
theorem test_lBf_not_taken : obs (fun t => (t.dslot, t.pc)) (run (.word 0x0FFFFFFF) (State.at State.reset 0x2000)) = some (some ⟨none, 0x2008⟩, 0x2004) := by decide

/-! ### 32-bit loads and stores (section 3.3) -/

theorem test_lLoad32u : obs (·.readReg 3) (run (.word 0x10320000) (withData (st [(2, 0x40)]))) = some 0x8091A1B2 := by decide
theorem test_lLoad32u_misaligned : faultOf (run (.word 0x10320002) (withData (st [(2, 0x40)]))) = some .misaligned := by decide
theorem test_lLoad16u_negative_offset : obs (·.readReg 3) (run (.word 0x1332FFFE) (withData (st [(2, 0x42)]))) = some 0x8091 := by decide
theorem test_lLoad16s : obs (·.readReg 5) (run (.word 0x14520002) (withData (st [(2, 0x40)]))) = some 0xFFFFA1B2 := by decide
theorem test_lLoad8u : obs (·.readReg 4) (run (.word 0x16420003) (withData (st [(2, 0x40)]))) = some 0xB2 := by decide
theorem test_lLoad8s : obs (·.readReg 3) (run (.word 0x18320000) (withData (st [(2, 0x40)]))) = some 0xFFFFFF80 := by decide
theorem test_lLoad32u_unwritten : faultOf (run (.word 0x10320020) (withData (st [(2, 0x40)]))) = some .unwrittenRead := by decide
theorem test_lStor32 : obs (fun t => [t.byteAt 0x60, t.byteAt 0x61, t.byteAt 0x62, t.byteAt 0x63, t.byteAt 0x64]) (run (.word 0x1A210000) (st [(2, 0x60), (1, 0x8091A1B2)])) =
    some [some 0x80, some 0x91, some 0xA1, some 0xB2, none] := by decide
theorem test_lStor16 : obs (fun t => [t.byteAt 0x64, t.byteAt 0x65, t.byteAt 0x66]) (run (.word 0x1C210004) (st [(2, 0x60), (1, 0x8091A1B2)])) =
    some [some 0xA1, some 0xB2, none] := by decide
theorem test_lStor8 : obs (fun t => [t.byteAt 0x65, t.byteAt 0x66, t.byteAt 0x67]) (run (.word 0x1E210006) (st [(2, 0x60), (1, 0x8091A1B2)])) =
    some [none, some 0xB2, none] := by decide
theorem test_lStor16_misaligned : faultOf (run (.word 0x1C210001) (st [(2, 0x60)])) = some .misaligned := by decide
theorem test_lStor32_to_text : refusalOf (run (.word 0x1A210000) (st [(2, 0x1000)])) = some .storeToText := by decide
theorem test_lStor32_outside_ram : refusalOf (run (.word 0x1A210000) (State.having (st [(2, 0x10000)]) smallRam)) = some .outsideRam := by decide

/-! ### 32-bit immediate instructions (section 3.4) -/

theorem test_lAddi32s_wraps : obs (·.readReg 1) (run (.word 0x20120001) (st [(2, 0x7FFFFFFF)])) = some 0x80000000 := by decide
theorem test_lAddi32s_most_positive : obs (·.readReg 1) (run (.word 0x2112FFFF) (st [(2, 0x1)])) = some 0x20000 := by decide
theorem test_lSubi32s_most_negative : obs (·.readReg 1) (run (.word 0x26120000) (st [(2, 0x0)])) = some 0x20000 := by decide
theorem test_lSubi32s_borrows : obs (·.readReg 1) (run (.word 0x24120001) (st [(2, 0x0)])) = some 0xFFFFFFFF := by decide
theorem test_lMuli32s_negative : obs (·.readReg 4) (run (.word 0x2845FFFD) (st [(5, 0x7)])) = some 0xFFFFFFEB := by decide
theorem test_lMuli32s_truncates : obs (·.readReg 4) (run (.word 0x28457FFF) (st [(5, 0x20000)])) = some 0xFFFE0000 := by decide
theorem test_lXori16_zero_extends : obs (·.readReg 6) (run (.word 0x29678001) (st [(7, 0xFFFF0000)])) = some 0xFFFF8001 := by decide
theorem test_lImmlo16u_keeps_high_half : obs (·.readReg 2) (run (.word 0x2A20BEEF) (st [(2, 0xFFFFFFFF)])) = some 0xFFFFBEEF := by decide
theorem test_lImmhi16u_keeps_low_half : obs (·.readReg 2) (run (.word 0x2B20DEAD) (st [(2, 0xBEEF)])) = some 0xDEADBEEF := by decide

/-! ### 32-bit register-register instructions (section 3.5) -/

theorem test_lSub32s_order : obs (·.readReg 1) (run (.word 0x2C123000) (st [(2, 0x5), (3, 0x7)])) = some 0xFFFFFFFE := by decide
theorem test_lSub32s_wraps : obs (·.readReg 1) (run (.word 0x2C123000) (st [(2, 0x80000000), (3, 0x1)])) = some 0x7FFFFFFF := by decide
theorem test_lShla32_or_of_counts : obs (·.readReg 1) (run (.word 0x2C123120) (st [(2, 0x80000001), (3, 0x1)])) = some 0x20 := by decide
theorem test_lShla32_five_bits : obs (·.readReg 1) (run (.word 0x2C123100) (st [(2, 0x80000001), (3, 0xFFFFFFE0)])) = some 0x80000001 := by decide
theorem test_lShra32_sign : obs (·.readReg 1) (run (.word 0x2C123220) (st [(2, 0xFFFFFF00)])) = some 0xFFFFFFF0 := by decide
theorem test_lShra32_full : obs (·.readReg 1) (run (.word 0x2C1232F8) (st [(2, 0x80000000)])) = some 0xFFFFFFFF := by decide
theorem test_lShrl32_register_count : obs (·.readReg 15) (run (.word 0x2CFED300) (st [(14, 0x80000000), (13, 0x21)])) = some 0x40000000 := by decide
theorem test_lShrl32_zero_fill : obs (·.readReg 1) (run (.word 0x2C123320) (st [(2, 0xFFFFFF00)])) = some 0x0FFFFFF0 := by decide
theorem test_lAnd32 : obs (·.readReg 1) (run (.word 0x2C123400) (st [(2, 0xFF00FF00), (3, 0x0FF00FF0)])) = some 0x0F000F00 := by decide
theorem test_lOr32 : obs (·.readReg 1) (run (.word 0x2C123500) (st [(2, 0xFF00FF00), (3, 0x0FF00FF0)])) = some 0xFFF0FFF0 := by decide
theorem test_lXor32 : obs (·.readReg 1) (run (.word 0x2C123600) (st [(2, 0xFF00FF00), (3, 0x0FF00FF0)])) = some 0xF0F0F0F0 := by decide
theorem test_lMul32s : obs (·.readReg 1) (run (.word 0x2C123700) (st [(2, 0xFFFFFFFF), (3, 0x3)])) = some 0xFFFFFFFD := by decide
theorem test_lMul32s_truncates : obs (·.readReg 1) (run (.word 0x2C123700) (st [(2, 0x12345678), (3, 0x9ABCDEF0)])) = some 0x242D2080 := by decide
theorem test_lMul32u : obs (·.readReg 1) (run (.word 0x2C123800) (st [(2, 0xFFFFFFFF), (3, 0xFFFFFFFF)])) = some 0x1 := by decide
theorem test_lDiv32s_toward_zero : obs (·.readReg 3) (run (.word 0x2C312900) (st [(1, 0xFFFFFFF9), (2, 0x2)])) = some 0xFFFFFFFD := by decide
theorem test_lDiv32s_zero_divisor : obs (·.divflag) (run (.word 0x2C312900) (st [(1, 0x5)])) = some true := by decide
theorem test_lDiv32u : obs (·.readReg 4) (run (.word 0x2C412A00) (st [(1, 0xFFFFFFF9), (2, 0x2)])) = some 0x7FFFFFFC := by decide
theorem test_lDiv32u_keeps_divflag : obs (·.divflag) (run (.word 0x2C412A00) { (st [(1, 0x7), (2, 0x2)]) with divflag := true }) = some true := by decide

/-! ### 32-bit system instructions (section 3.6) -/

theorem test_lMtsr : obs (·.readSpr 0x1234) (run (.word 0x30712634) (State.having (st [(7, 0xCAFE0001)]) plain)) =
    some 0xCAFE0001 := by decide
theorem test_lMtsr_unknown : refusalOf (run (.word 0x30712634) (st [(7, 0x1)])) = some .unknownSpecialRegister := by decide
theorem test_lMfsr : obs (·.readReg 8) (run (.word 0x30812734) ((State.having State.reset plain).writeSpr 0x1234 0xCAFE0001)) = some 0xCAFE0001 := by decide
theorem test_lMfsr_user : faultOf (run (.word 0x307AB7CD) (State.user State.reset)) = some .privilegeViolation := by decide
theorem test_lDcbf_stops : refusalOf (run (.word 0x30512034) State.reset) = some .semanticsTBD ∧
    faultOf (run (.word 0x30512034) (State.user State.reset)) = some .privilegeViolation := by decide
theorem test_lDcbt_stops : refusalOf (run (.word 0x30500100) State.reset) = some .semanticsTBD ∧
    faultOf (run (.word 0x30500100) (State.user State.reset)) = some .privilegeViolation := by decide
theorem test_lDcbi_stops : refusalOf (run (.word 0x305FF2FC) State.reset) = some .semanticsTBD ∧
    faultOf (run (.word 0x305FF2FC) (State.user State.reset)) = some .privilegeViolation := by decide
theorem test_lDcia_stops : refusalOf (run (.word 0x30000300) State.reset) = some .semanticsTBD ∧
    faultOf (run (.word 0x30000300) (State.user State.reset)) = some .privilegeViolation := by decide
theorem test_lDcfa_stops : refusalOf (run (.word 0x30000400) State.reset) = some .semanticsTBD ∧
    faultOf (run (.word 0x30000400) (State.user State.reset)) = some .privilegeViolation := by decide
theorem test_lTlbia_stops : refusalOf (run (.word 0x30000500) State.reset) = some .semanticsTBD ∧
    faultOf (run (.word 0x30000500) (State.user State.reset)) = some .privilegeViolation := by decide

/-! ### 16-bit compares and move (section 3.7) -/

theorem test_hSfeq32 : obs (·.flag) (run (.half 0x4012) (st [(1, 0xFFFFFFFF), (2, 0x1)])) = some false ∧
    obs (·.flag) (run (.half 0x4012) (st [(1, 0x5), (2, 0x5)])) = some true ∧
    obs (·.flag) (run (.half 0x4012) (st [(1, 0x1), (2, 0xFFFFFFFF)])) = some false := by decide
theorem test_hSfne32 : obs (·.flag) (run (.half 0x4112) (st [(1, 0xFFFFFFFF), (2, 0x1)])) = some true ∧
    obs (·.flag) (run (.half 0x4112) (st [(1, 0x5), (2, 0x5)])) = some false ∧
    obs (·.flag) (run (.half 0x4112) (st [(1, 0x1), (2, 0xFFFFFFFF)])) = some true := by decide
theorem test_hSfgt32s : obs (·.flag) (run (.half 0x4212) (st [(1, 0xFFFFFFFF), (2, 0x1)])) = some false ∧
    obs (·.flag) (run (.half 0x4212) (st [(1, 0x5), (2, 0x5)])) = some false ∧
    obs (·.flag) (run (.half 0x4212) (st [(1, 0x1), (2, 0xFFFFFFFF)])) = some true := by decide
theorem test_hSfge32s : obs (·.flag) (run (.half 0x4312) (st [(1, 0xFFFFFFFF), (2, 0x1)])) = some false ∧
    obs (·.flag) (run (.half 0x4312) (st [(1, 0x5), (2, 0x5)])) = some true ∧
    obs (·.flag) (run (.half 0x4312) (st [(1, 0x1), (2, 0xFFFFFFFF)])) = some true := by decide
theorem test_hSflt32s : obs (·.flag) (run (.half 0x4412) (st [(1, 0xFFFFFFFF), (2, 0x1)])) = some true ∧
    obs (·.flag) (run (.half 0x4412) (st [(1, 0x5), (2, 0x5)])) = some false ∧
    obs (·.flag) (run (.half 0x4412) (st [(1, 0x1), (2, 0xFFFFFFFF)])) = some false := by decide
theorem test_hSfle32s : obs (·.flag) (run (.half 0x4512) (st [(1, 0xFFFFFFFF), (2, 0x1)])) = some true ∧
    obs (·.flag) (run (.half 0x4512) (st [(1, 0x5), (2, 0x5)])) = some true ∧
    obs (·.flag) (run (.half 0x4512) (st [(1, 0x1), (2, 0xFFFFFFFF)])) = some false := by decide
theorem test_hSfgt32u : obs (·.flag) (run (.half 0x4612) (st [(1, 0xFFFFFFFF), (2, 0x1)])) = some true ∧
    obs (·.flag) (run (.half 0x4612) (st [(1, 0x5), (2, 0x5)])) = some false ∧
    obs (·.flag) (run (.half 0x4612) (st [(1, 0x1), (2, 0xFFFFFFFF)])) = some false := by decide
theorem test_hSfge32u : obs (·.flag) (run (.half 0x4712) (st [(1, 0xFFFFFFFF), (2, 0x1)])) = some true ∧
    obs (·.flag) (run (.half 0x4712) (st [(1, 0x5), (2, 0x5)])) = some true ∧
    obs (·.flag) (run (.half 0x4712) (st [(1, 0x1), (2, 0xFFFFFFFF)])) = some false := by decide
theorem test_hSflt32u : obs (·.flag) (run (.half 0x4812) (st [(1, 0xFFFFFFFF), (2, 0x1)])) = some false ∧
    obs (·.flag) (run (.half 0x4812) (st [(1, 0x5), (2, 0x5)])) = some false ∧
    obs (·.flag) (run (.half 0x4812) (st [(1, 0x1), (2, 0xFFFFFFFF)])) = some true := by decide
theorem test_hSfle32u : obs (·.flag) (run (.half 0x4912) (st [(1, 0xFFFFFFFF), (2, 0x1)])) = some false ∧
    obs (·.flag) (run (.half 0x4912) (st [(1, 0x5), (2, 0x5)])) = some true ∧
    obs (·.flag) (run (.half 0x4912) (st [(1, 0x1), (2, 0xFFFFFFFF)])) = some true := by decide
theorem test_hMov32 : obs (·.readReg 10) (run (.half 0x4AAB) (st [(11, 0x12345678)])) = some 0x12345678 := by decide
theorem test_hMov32_switched_off : faultOf (run (.half 0x4AAB) (State.having State.reset noClasses)) = some (.illegalInstruction 0x1000 (.half 0x4AAB) 0) := by decide

/-! ### 16-bit extends, no-operation, jump through register (section 3.8) -/

theorem test_hExt16s : obs (·.readReg 3) (run (.half 0x4B30) (st [(3, 0x1234A1B2)])) = some 0xFFFFA1B2 := by decide
theorem test_hExt16z : obs (·.readReg 3) (run (.half 0x4B31) (st [(3, 0x1234A1B2)])) = some 0xA1B2 := by decide
theorem test_hExt8s : obs (·.readReg 3) (run (.half 0x4B32) (st [(3, 0x12345680)])) = some 0xFFFFFF80 := by decide
theorem test_hExt8s_positive : obs (·.readReg 3) (run (.half 0x4B32) (st [(3, 0xFFFFFF7F)])) = some 0x7F := by decide
theorem test_hExt8z : obs (·.readReg 3) (run (.half 0x4B33) (st [(3, 0x123456F0)])) = some 0xF0 := by decide
theorem test_hNop : obs id (run (.half 0x4B04) (State.at State.reset 0x106)) = some (State.at (put (.half 0x4B04) (State.at State.reset 0x106)) 0x108) := by decide
theorem test_hJalr_of_the_link_register : obs (fun t => (t.dslot, t.pc)) (run (.half 0x4B95) (State.at (st [(9, 0x30C)]) 0x32A)) = some (some ⟨some 0x30C, 0x330⟩, 0x32C) ∧
    obs (·.readReg 9) (run (.half 0x4B95) (State.at (st [(9, 0x30C)]) 0x32A)) = some 0x330 := by decide
theorem test_hJalr_odd_target : refusalOf (run (.half 0x4B15) (State.at (st [(1, 0x101)]) 0x400)) = some .oddTarget := by decide

/-! ### 16-bit load, store, add, immediate, jumps, hint (section 3.9) -/

theorem test_hLoad32u_negative_offset : obs (·.readReg 1) (run (.half 0x5812) (withData (st [(2, 0x48)]))) = some 0x8091A1B2 := by decide
theorem test_hLoad32u_unscaled_offset : faultOf (run (.half 0x5112) (withData (st [(2, 0x40)]))) = some .misaligned := by decide
theorem test_hStor32 : obs (fun t => [t.byteAt 0x3B, t.byteAt 0x3C, t.byteAt 0x3D, t.byteAt 0x3E, t.byteAt 0x3F, t.byteAt 0x40]) (run (.half 0x6C27) (st [(2, 0x40), (7, 0x8091A1B2)])) =
    some [none, some 0x80, some 0x91, some 0xA1, some 0xB2, none] := by decide
theorem test_hAdd32s_wraps : obs (·.readReg 1) (run (.half 0x7312) (st [(2, 0x7FFFFFFF), (3, 0x1)])) = some 0x80000000 := by decide
theorem test_hAdd32s_same_register : obs (·.readReg 1) (run (.half 0x7111) (st [(1, 0x80000001)])) = some 0x2 := by decide
theorem test_hImmch32s_negative : obs (·.readReg 5) (run (.half 0x8850) State.reset) = some 0xFFFFFF80 := by decide
theorem test_hImmch32s_positive : obs (·.readReg 5) (run (.half 0x875F) State.reset) = some 0x7F := by decide
theorem test_hJal9 : obs (fun t => (t.dslot, t.pc)) (run (.half 0x9003) (State.at State.reset 0x500)) = some (some ⟨some 0x50E, 0x506⟩, 0x502) ∧
    obs (·.readReg 9) (run (.half 0x9003) (State.at State.reset 0x500)) = some 0x506 := by decide
theorem test_hJalA : obs (fun t => (t.dslot, t.pc)) (run (.half 0xAFFF) (State.at State.reset 0x502)) = some (some ⟨some 0x500, 0x508⟩, 0x504) ∧
    obs (·.readReg 9) (run (.half 0xAFFF) (State.at State.reset 0x502)) = some 0x508 := by decide
theorem test_hBnf_taken : obs (fun t => (t.dslot, t.pc)) (run (.half 0xB002) (State.at State.reset 0x112)) = some (some ⟨some 0x11C, 0x118⟩, 0x114) := by decide
theorem test_hBnf_not_taken : obs (fun t => (t.dslot, t.pc)) (run (.half 0xB002) (State.flagged (State.at State.reset 0x112) true)) = some (some ⟨none, 0x118⟩, 0x114) := by decide
theorem test_hBf_taken : obs (fun t => (t.dslot, t.pc)) (run (.half 0xCFFD) (State.flagged (State.at State.reset 0x112) true)) = some (some ⟨some 0x108, 0x118⟩, 0x114) := by decide
theorem test_hBf_most_negative : obs (fun t => (t.dslot, t.pc)) (run (.half 0xC800) (State.flagged (State.at State.reset 0x4002) true)) = some (some ⟨some 0x2004, 0x4008⟩, 0x4004) := by decide
theorem test_hSched : obs id (run (.half 0xFABC) State.reset) = some (State.at (put (.half 0xFABC) State.reset) 0x1002) := by decide
theorem test_hSched_switched_off : faultOf (run (.half 0xFABC) (State.having State.reset noClasses)) = some (.illegalInstruction 0x1000 (.half 0xFABC) 0) := by decide

/-! ### Fetch, alignment and the delay slot (section 3.10) -/

theorem test_fetch_odd_pc : refusalOf (step (State.at State.reset 0x1001)) = some .misalignedFetch := by decide
theorem test_fetch_long_at_two_mod_four : refusalOf (run (.word 0x2C123000) (State.at State.reset 0x1002)) = some .misalignedFetch := by decide
theorem test_fetch_outside_text : refusalOf (step State.reset) = some .fetchOutsideText := by decide
theorem test_slot_overrun : refusalOf (run (.word 0x2C123000) (State.slotted (State.at State.reset 0x504) (some 0x504) 0x506)) = some .delaySlotOverrun := by decide
theorem test_jump_in_slot : refusalOf (run (.word 0x04000000) (State.slotted (State.at State.reset 0x508) none 0x50C)) = some .controlTransferInDelaySlot := by decide
theorem test_slot_first_half : obs (fun t => (t.dslot, t.pc)) (run (.half 0x4B04) (State.slotted (State.at State.reset 0x508) (some 0x700) 0x50C)) =
    some (some ⟨some 0x700, 0x50C⟩, 0x50A) := by decide
theorem test_slot_closes : obs (fun t => (t.dslot, t.pc)) (run (.half 0x4B04) (State.slotted (State.at State.reset 0x50A) (some 0x700) 0x50C)) =
    some (none, 0x700) := by decide
theorem test_reserved_before_privilege : refusalOf (run (.word 0x30100300) (State.user State.reset)) = some .reservedFieldNonZero := by decide

/-! ### Witnesses: for each statement with hypotheses, concrete values that meet them, each clause at a boundary -/

/-- An even pc, no slot, an instruction in TEXT. -/
def sNop : State := put (.half 0x4B04) State.reset
def sWord : State := put (.word 0x20120001) State.reset
/-- In a slot's first and second half. -/
def sFirst : State := State.slotted sNop (some 0x2000) 0x1004
def sSecond : State := State.slotted (put (.half 0x4B04) (State.at State.reset 0x1002)) (some 0x2000) 0x1004
/-- `l.j 5` and what one step makes of it, with a 32-bit instruction or two 16-bit ones in the slot. -/
def sJump (slot : List Byte) : State :=
  { State.reset with params := { Params.default with text := textWith 0x1000 (bytes32 5 ++ slot) [] } }
def sJumped (slot : List Byte) : State := { sJump slot with pc := 0x1004, dslot := some ⟨some 0x1018, 0x1008⟩ }
/-- The bytes 0x80 .. 0x83 at the last word of memory. -/
def sTop : State := (st [(2, 0xFFFFFFFC)]).putBytes 0xFFFFFFFC [0x80, 0x81, 0x82, 0x83]
/-- A 32-bit instruction at 2 modulo 4, and one whose second half is not in TEXT. -/
def sOff : State := put (.word 0x2C123000) (State.at State.reset 0x1002)
def sCut : State := placeText State.reset [0x3F, 0xFF]
/-- An unassigned encoding, and one with a reserved bit. -/
def sBad : State := put (.word 0x2C123B00) State.reset
def sRes : State := put (.half 0x4B0C) State.reset
/-- The last byte of the word at x[2] is outside RAM; is in TEXT; holds no value. -/
def sEdge : State := State.having (st [(2, 0xFFFC)]) (fun p => { p with ram := [⟨0, 0xFFFF⟩] })
def sInto : State := put (.half 0x4B04) (State.at (st [(2, 0xFFC)]) 0xFFF)
def sThree : State := (st [(2, 0x40)]).putBytes 0x40 [1, 2, 3]

theorem witness_DecodeOfEncodeIsTheInstruction : (Instr.lJ 1).wf = true ∧ Instr.lIllegal.wf = true := by decide

theorem witness_EncodeOfDecodeIsTheWord :
    decode (.word 1) = .ok (.lJ 1) ∧ decode (.half 0xFFFF) = .ok (.hSched 0xFFF) := by decide

theorem witness_UnassignedEncodingsAreThoseOfTheMap :
    ([0x2D000000, 0x2FFFFFFF, 0x31000000, 0x3FFFFFFF, 0x2C000B00, 0x2C000FFF, 0x30000800, 0x30000FFF] : List Word).all
      (fun w => w.extractLsb' 30 2 = 0 ∧ decode (.word w) = .error .unassigned) ∧
    ([0x4C00, 0x4FFF, 0xD000, 0xEFFF, 0x4B06, 0x4BFF] : List Half).all
      (fun h => h.extractLsb' 14 2 ≠ 0 ∧ decode (.half h) = .error .unassigned) ∧
    ([0x2C000000, 0x2C000A00, 0x30000000, 0x30000700] : List Word).all (fun w => decode (.word w) ≠ .error .unassigned) ∧
    ([0x4B00, 0x4B05, 0xCFFF, 0xF000] : List Half).all (fun h => decode (.half h) ≠ .error .unassigned) := by decide

theorem witness_ReservedFieldsAreThoseOfTheFigures :
    ([0x2A010000, 0x2B0F0000, 0x2C000001, 0x2C000A80, 0x2C000101, 0x2C000304, 0x30001300, 0x30000501] : List Word).all
      (fun w => decode (.word w) = .error .reservedField) ∧
    ([0x4B08, 0x4B0D, 0x4B0C, 0x4B84] : List Half).all (fun h => decode (.half h) = .error .reservedField) := by decide

theorem witness_StepRunsTheDecodedInstruction :
    sWord.runOver = false ∧ fetch sWord sWord.pc = .ok (.word 0x20120001) ∧ slotOverrun sWord 4 = false ∧
      decode (.word 0x20120001) = .ok (.lAddi32s 1 2 1) := by decide

theorem witness_CycleMovesPcAndDelaySlot :
    (sWord.runOver = false ∧ fetch sWord sWord.pc = .ok (.word 0x20120001) ∧ slotOverrun sWord 4 = false ∧
      decode (.word 0x20120001) = .ok (.lAddi32s 1 2 1) ∧ (∃ t, exec (.lAddi32s 1 2 1) sWord = .next t) ∧
      sWord.dslot = none) ∧
    (sSecond.runOver = false ∧ fetch sSecond sSecond.pc = .ok (.half 0x4B04) ∧ slotOverrun sSecond 2 = false ∧
      decode (.half 0x4B04) = .ok .hNop ∧ exec .hNop sSecond = .next sSecond ∧
      sSecond.dslot = some ⟨some 0x2000, 0x1004⟩ ∧ sSecond.pc + 2 = 0x1004) ∧
    (sFirst.runOver = false ∧ fetch sFirst sFirst.pc = .ok (.half 0x4B04) ∧ slotOverrun sFirst 2 = false ∧
      exec .hNop sFirst = .next sFirst ∧ sFirst.dslot = some ⟨some 0x2000, 0x1004⟩ ∧ sFirst.pc + 2 ≠ 0x1004) :=
  ⟨⟨rfl, by decide, rfl, by decide, ⟨_, rfl⟩, rfl⟩, ⟨rfl, by decide, by decide, by decide, rfl, rfl, by decide⟩,
    ⟨rfl, by decide, by decide, rfl, rfl, by decide⟩⟩

theorem witness_TakenTransferReachesTargetAfterFourBytes_word :
    (sJump (bytes32 0x20120001)).dslot = none ∧ (sJump (bytes32 0x20120001)).runOver = false ∧
      step (sJump (bytes32 0x20120001)) = .next (sJumped (bytes32 0x20120001)) ∧
      (sJumped (bytes32 0x20120001)).dslot = some ⟨some 0x1018, 0x1008⟩ ∧
      fetch (sJumped (bytes32 0x20120001)) 0x1004 = .ok (.word 0x20120001) ∧
      decode (.word 0x20120001) = .ok (.lAddi32s 1 2 1) ∧
      ∃ v, exec (.lAddi32s 1 2 1) (sJumped (bytes32 0x20120001)) = .next v :=
  ⟨rfl, rfl, rfl, rfl, by decide, by decide, ⟨_, rfl⟩⟩

theorem witness_TakenTransferReachesTargetAfterFourBytes_halves :
    (sJump (bytes32 0x4B044B04)).dslot = none ∧ (sJump (bytes32 0x4B044B04)).runOver = false ∧
      step (sJump (bytes32 0x4B044B04)) = .next (sJumped (bytes32 0x4B044B04)) ∧
      (sJumped (bytes32 0x4B044B04)).dslot = some ⟨some 0x1018, 0x1008⟩ ∧
      fetch (sJumped (bytes32 0x4B044B04)) 0x1004 = .ok (.half 0x4B04) ∧ decode (.half 0x4B04) = .ok .hNop ∧
      exec .hNop (sJumped (bytes32 0x4B044B04)) = .next (sJumped (bytes32 0x4B044B04)) ∧
      step (sJumped (bytes32 0x4B044B04)) = .next (State.at (sJumped (bytes32 0x4B044B04)) 0x1006) ∧
      fetch (State.at (sJumped (bytes32 0x4B044B04)) 0x1006) 0x1006 = .ok (.half 0x4B04) ∧
      exec .hNop (State.at (sJumped (bytes32 0x4B044B04)) 0x1006) =
        .next (State.at (sJumped (bytes32 0x4B044B04)) 0x1006) :=
  ⟨rfl, rfl, rfl, rfl, by decide, by decide, rfl, rfl, by decide, rfl⟩

theorem witness_FetchReadsTextBigEndian :
    (sNop.pc.getLsbD 0 = false ∧ lookupKey 0x1000 sNop.params.text = some 0x4B ∧
      lookupKey 0x1001 sNop.params.text = some 0x04 ∧ (0x4B#8 ++ 0x04#8).extractLsb' 14 2 ≠ 0) ∧
    (sWord.pc.getLsbD 0 = false ∧ lookupKey 0x1000 sWord.params.text = some 0x20 ∧
      lookupKey 0x1001 sWord.params.text = some 0x12 ∧ (0x20#8 ++ 0x12#8).extractLsb' 14 2 = 0 ∧
      sWord.pc.getLsbD 1 = false ∧ lookupKey 0x1002 sWord.params.text = some 0x00 ∧
      lookupKey 0x1003 sWord.params.text = some 0x01) := by decide

theorem witness_FetchRefusesInOrder :
    ((State.at State.reset 0xFFFFFFFF).runOver = false ∧ (0xFFFFFFFF : Word).getLsbD 0 = true) ∧
    (State.reset.runOver = false ∧ State.reset.pc.getLsbD 0 = false ∧
      lookupKey State.reset.pc.toNat State.reset.params.text = none) ∧
    (sOff.runOver = false ∧ sOff.pc.getLsbD 0 = false ∧ fetchHalf sOff sOff.pc = .ok 0x2C12 ∧
      (0x2C12 : Half).extractLsb' 14 2 = 0 ∧ sOff.params.insn32Align = .four ∧ sOff.pc.getLsbD 1 = true) ∧
    (sCut.runOver = false ∧ sCut.pc.getLsbD 0 = false ∧ fetchHalf sCut sCut.pc = .ok 0x3FFF ∧
      (0x3FFF : Half).extractLsb' 14 2 = 0 ∧ sCut.pc.getLsbD 1 = false ∧
      lookupKey (sCut.pc + 2).toNat sCut.params.text = none) := by decide

theorem witness_OverrunningTheDelaySlotIsRefused :
    ((State.slotted sWord none 0x1007).dslot = some ⟨none, 0x1007⟩ ∧
      fetch (State.slotted sWord none 0x1007) 0x1000 = .ok (.word 0x20120001) ∧
      ((0x1007 : Word) - (0x1000 + 4)).toNat > 2) ∧
    ((State.slotted sWord none 0x1002).dslot = some ⟨none, 0x1002⟩ ∧
      fetch (State.slotted sWord none 0x1002) 0x1000 = .ok (.word 0x20120001) ∧ (0x1000 : Word) = 0x1002 - 2) := by decide

theorem witness_UndecodedWordsStop :
    (sBad.runOver = false ∧ fetch sBad sBad.pc = .ok (.word 0x2C123B00) ∧ slotOverrun sBad 4 = false ∧
      decode (.word 0x2C123B00) = .error .unassigned) ∧
    (sRes.runOver = false ∧ fetch sRes sRes.pc = .ok (.half 0x4B0C) ∧ slotOverrun sRes 2 = false ∧
      decode (.half 0x4B0C) = .error .reservedField) := by decide

def halting (p : Params) : Params := { p with haltPc := some 0x1000 }

theorem witness_RunOverStays :
    (State.having State.reset halting).params.haltPc = some (State.having State.reset halting).pc ∧
      (State.having State.reset halting).dslot = none := by decide

theorem witness_NoTransferInDelaySlot :
    isTransfer (.hBf 0) = true ∧ isTransfer (.lJ 1) = true ∧ sFirst.dslot = some ⟨some 0x2000, 0x1004⟩ ∧
      classOn (.hBf 0) sFirst ∧ classOn (.lJ 1) sFirst :=
  ⟨rfl, rfl, rfl, ⟨fun _ => rfl, fun _ => rfl⟩, ⟨fun _ => rfl, fun _ => rfl⟩⟩

/-- For every statement about a completed step: the run, from a state in the invariant, with a slot open, and at the end. -/
theorem witness_StepKeepsInv :
    (sWord.inv = true ∧ ∃ t, step sWord = .next t) ∧ (sSecond.inv = true ∧ ∃ t, step sSecond = .next t) ∧
      ((sJump (bytes32 0x4B044B04)).inv = true ∧ ∃ t, step (sJump (bytes32 0x4B044B04)) = .next t) :=
  ⟨⟨by decide, ⟨_, rfl⟩⟩, ⟨by decide, ⟨_, rfl⟩⟩, ⟨by decide, ⟨_, rfl⟩⟩⟩

theorem witness_LaunchStatesHaveInv : launchOk sWord.params = true ∧ launchOk Params.default = true := by decide

theorem witness_StepKeepsModeAndParameters : ∃ t, step sWord = .next t := ⟨_, rfl⟩

theorem witness_OnlyComparesWriteTheFlag :
    (∃ t, exec (.lAddi32s 1 2 1) State.reset = .next t) ∧ isCompare (.lAddi32s 1 2 1) = false := ⟨⟨_, rfl⟩, rfl⟩

theorem witness_OnlyZeroDivisorsSetTheDivisorFlag :
    (∃ t, exec (.lDiv32u 1 2 3) State.reset = .next t) ∧ divisorOf (.lDiv32u 1 2 3) State.reset = some 0 ∧
      (∃ t, exec (.lDiv32s 1 2 3) (st [(3, 1)]) = .next t) ∧ divisorOf (.lDiv32s 1 2 3) (st [(3, 1)]) = some 1 :=
  ⟨⟨_, rfl⟩, by decide, ⟨_, rfl⟩, by decide⟩

theorem witness_OnlyStoresChangeMemory :
    (∃ t, exec (.lStor32 2 1 0) (st [(2, 0xFFFFFFFC)]) = .next t) ∧
      accessOf (.lStor32 2 1 0) (st [(2, 0xFFFFFFFC)]) = some (0xFFFFFFFC, 4, true) ∧
      (∃ t, exec (.lLoad32u 1 2 0) sTop = .next t) ∧ ∀ ea n, accessOf (.lLoad32u 1 2 0) sTop ≠ some (ea, n, true) :=
  ⟨⟨_, rfl⟩, by decide, ⟨_, rfl⟩, fun _ _ h => by cases h⟩

theorem witness_OnlyMtsrWritesSpecialRegisters :
    (∃ t, exec (.lMtsr 0x1234 7) (State.having State.reset plain) = .next t) ∧ (0xFFFF : SprNo) ≠ 0x1234 ∧
      (∃ t, exec .hNop State.reset = .next t) ∧ ∀ n a, Instr.hNop ≠ .lMtsr n a :=
  ⟨⟨_, rfl⟩, by decide, ⟨_, rfl⟩, fun _ _ h => by cases h⟩

theorem witness_TextBytesNeverChange : (∃ t, step sWord = .next t) ∧ inText sWord.params (0x1003 : Word).toNat = true :=
  ⟨⟨_, rfl⟩, by decide⟩

theorem witness_OnlyTransfersOpenASlot :
    (∃ t, exec .hNop State.reset = .next t) ∧ isTransfer .hNop = false := ⟨⟨_, rfl⟩, rfl⟩

theorem witness_UserModeStepKeepsSpecialRegisters :
    (State.user sWord).mode = .user ∧ ∃ t, step (State.user sWord) = .next t := ⟨rfl, ⟨_, rfl⟩⟩

/-- For the jumps and branches outside a slot, at the largest even pc, and in one. -/
theorem witness_JumpOpensSlotAtTarget :
    (State.at State.reset 0xFFFFFFFE).dslot = none ∧ (0xFFFFFFFE : Word).getLsbD 0 = false ∧ sFirst.dslot ≠ none := by decide
theorem witness_JumpAndLinkWritesReturnAddress :
    (State.at State.reset 0).dslot = none ∧ (0 : Word).getLsbD 0 = false ∧ sSecond.dslot ≠ none := by decide
theorem witness_BranchesReadTheFlag :
    (State.at State.reset 0xFFFFFFFE).dslot = none ∧ (State.at State.reset 0xFFFFFFFE).pc.getLsbD 0 = false := by decide
theorem witness_ShortJumpAndLinkWritesReturnAddress :
    ((State.at State.reset 0xFFFFFFFE).params.implClass2 = true ∧ (State.at State.reset 0xFFFFFFFE).dslot = none ∧
      (State.at State.reset 0xFFFFFFFE).pc.getLsbD 0 = false) ∧
    (sFirst.params.implClass2 = true ∧ sFirst.dslot ≠ none) ∧
    (State.having State.reset noClasses).params.implClass2 = false := by decide
theorem witness_JumpRegisterLinksAndJumps :
    (st [(1, 0xFFFFFFFE)]).dslot = none ∧ ((st [(1, 0xFFFFFFFE)]).readReg 1).getLsbD 0 = false ∧
      (st [(1, 0xFFFFFFFF)]).dslot = none ∧ ((st [(1, 0xFFFFFFFF)]).readReg 1).getLsbD 0 = true := by decide
theorem witness_ShortBranchesReadTheFlag :
    (State.at State.reset 2).params.implClass2 = true ∧ (State.at State.reset 2).dslot = none ∧
      (State.at State.reset 2).pc.getLsbD 0 = false := by decide

theorem witness_LoadsExtendTheDatum :
    Readable sTop (sTop.readReg 2 + (0 : BitVec 17).signExtend 32) [0x80, 0x81, 0x82, 0x83] ∧
      Readable sTop (sTop.readReg 2 + (2 : BitVec 17).signExtend 32) [0x82, 0x83] ∧
      Readable sTop (sTop.readReg 2 + (3 : BitVec 17).signExtend 32) [0x83] :=
  ⟨⟨by decide, by decide⟩, ⟨by decide, by decide⟩, ⟨by decide, by decide⟩⟩
theorem witness_ShortLoadReadsAWord :
    sTop.params.implClass2 = true ∧
      Readable sTop (sTop.readReg 2 + (0 : BitVec 4).signExtend 32) [0x80, 0x81, 0x82, 0x83] :=
  ⟨rfl, ⟨by decide, by decide⟩⟩
theorem witness_StoresWriteLowOrderBytes :
    Writable sTop (sTop.readReg 2 + (0 : BitVec 17).signExtend 32) 4 ∧
      Writable sTop (sTop.readReg 2 + (2 : BitVec 17).signExtend 32) 2 ∧
      Writable sTop (sTop.readReg 2 + (3 : BitVec 17).signExtend 32) 1 :=
  ⟨⟨by decide, by decide⟩, ⟨by decide, by decide⟩, ⟨by decide, by decide⟩⟩
theorem witness_ShortStoreWritesAWord :
    sTop.params.implClass2 = true ∧ Writable sTop (sTop.readReg 2 + (0 : BitVec 4).signExtend 32) 4 :=
  ⟨rfl, ⟨by decide, by decide⟩⟩

/-- One state per clause: misaligned; the last byte outside RAM; the last byte in TEXT; the last byte without a value. -/
theorem witness_DataAccessStopsInOrder :
    (accessOf (.lLoad32u 1 2 0) (st [(2, 0xFFFFFFFF)]) = some (0xFFFFFFFF, 4, false) ∧
      classOn (.lLoad32u 1 2 0) (st [(2, 0xFFFFFFFF)]) ∧ (0xFFFFFFFF : Word).toNat % 4 ≠ 0) ∧
    (accessOf (.lStor32 2 1 0) sEdge = some (0xFFFC, 4, true) ∧ classOn (.lStor32 2 1 0) sEdge ∧
      (0xFFFC : Word).toNat % 4 = 0 ∧ ∃ k, k < 4 ∧ inRam sEdge.params ((0xFFFC : Word) + BitVec.ofNat 32 k).toNat = false) ∧
    (accessOf (.lStor32 2 1 0) sInto = some (0xFFC, 4, true) ∧ classOn (.lStor32 2 1 0) sInto ∧
      (0xFFC : Word).toNat % 4 = 0 ∧
      (∀ k, k < 4 → inRam sInto.params ((0xFFC : Word) + BitVec.ofNat 32 k).toNat = true) ∧
      ∃ k, k < 4 ∧ inText sInto.params ((0xFFC : Word) + BitVec.ofNat 32 k).toNat = true) ∧
    (accessOf (.hLoad32u 1 2 0) sThree = some (0x40, 4, false) ∧ classOn (.hLoad32u 1 2 0) sThree ∧
      (0x40 : Word).toNat % 4 = 0 ∧ (∀ k, k < 4 → inRam sThree.params ((0x40 : Word) + BitVec.ofNat 32 k).toNat = true) ∧
      ∃ k, k < 4 ∧ sThree.byteAt ((0x40 : Word) + BitVec.ofNat 32 k) = none) :=
  ⟨⟨by decide, ⟨fun _ => rfl, fun _ => rfl⟩, by decide⟩,
    ⟨by decide, ⟨fun _ => rfl, fun _ => rfl⟩, by decide, ⟨3, by decide, by decide⟩⟩,
    ⟨by decide, ⟨fun _ => rfl, fun _ => rfl⟩, by decide, by decide, ⟨3, by decide, by decide⟩⟩,
    ⟨by decide, ⟨fun _ => rfl, fun _ => rfl⟩, by decide, by decide, ⟨3, by decide, by decide⟩⟩⟩

theorem witness_LoadAfterStoreSeesTheValue :
    (∃ t, exec (.lStor32 2 1 0) (st [(2, 0xFFFFFFFC)]) = .next t) ∧
      (∃ t, exec (.lStor16 2 1 2) (st [(2, 0xFFFFFFFC)]) = .next t) ∧
      ∃ t, exec (.lStor8 2 1 3) (st [(2, 0xFFFFFFFC)]) = .next t := ⟨⟨_, rfl⟩, ⟨_, rfl⟩, ⟨_, rfl⟩⟩

def muliZero (p : Params) : Params := { p with muliExt := .zero }
def xoriSign (p : Params) : Params := { p with xori16Ext := .sign }
def hardZero (p : Params) : Params := { p with r0Zero := true }

theorem witness_MultiplyImmediateTruncates :
    (State.reset.params.implClass2 = true ∧ State.reset.params.muliExt = .sign) ∧
    ((State.having State.reset muliZero).params.implClass2 = true ∧
      (State.having State.reset muliZero).params.muliExt = .zero) ∧
    (State.having State.reset noClasses).params.implClass2 = false := by decide
theorem witness_XorImmediateHalfWord :
    (State.reset.params.implClass3 = true ∧ State.reset.params.xori16Ext = .zero) ∧
    ((State.having State.reset xoriSign).params.implClass3 = true ∧
      (State.having State.reset xoriSign).params.xori16Ext = .sign) ∧
    (State.having State.reset noClasses).params.implClass3 = false := by decide
theorem witness_HalfWordImmediatesBuildConstants :
    (∃ t, exec (.lImmlo16u 2 0xBEEF) State.reset = .next t) ∧ ∃ t, exec (.lImmhi16u 2 0xDEAD) State.reset = .next t :=
  ⟨⟨_, rfl⟩, ⟨_, rfl⟩⟩
theorem witness_ShiftsByTheCombinedCount :
    (31 : Nat) = ((31 : BitVec 5) ||| (State.reset.readReg 3).extractLsb' 0 5).toNat ∧
      (0 : Nat) = ((0 : BitVec 5) ||| (State.reset.readReg 3).extractLsb' 0 5).toNat := by decide
theorem witness_MultipliesAgree :
    State.reset.params.implClass2 = true ∧ (State.having State.reset noClasses).params.implClass2 = false := by decide
theorem witness_DivisionFollowsTheTable :
    (State.having State.reset noClasses).params.implClass3 = false ∧
      (State.reset.params.implClass3 = true ∧ State.reset.readReg 3 = 0) ∧
      ((st [(2, 0x80000000), (3, 0xFFFFFFFF)]).params.implClass3 = true ∧
        (st [(2, 0x80000000), (3, 0xFFFFFFFF)]).readReg 3 ≠ 0 ∧
        (st [(2, 0x80000000), (3, 0xFFFFFFFF)]).readReg 2 = 0x80000000 ∧
        (st [(2, 0x80000000), (3, 0xFFFFFFFF)]).readReg 3 = 0xFFFFFFFF) ∧
      ((st [(2, 0x80000001), (3, 0xFFFFFFFF)]).params.implClass3 = true ∧
        (st [(2, 0x80000001), (3, 0xFFFFFFFF)]).readReg 3 ≠ 0 ∧
        ¬((st [(2, 0x80000001), (3, 0xFFFFFFFF)]).readReg 2 = 0x80000000 ∧
          (st [(2, 0x80000001), (3, 0xFFFFFFFF)]).readReg 3 = 0xFFFFFFFF)) := by decide
theorem witness_MoveCopiesTheRegister :
    State.reset.params.implClass2 = true ∧ ∃ t, exec (.hMov32 15 0) State.reset = .next t := ⟨rfl, ⟨_, rfl⟩⟩
theorem witness_ExtendsFillTheHighBits : State.reset.params.implClass2 = true := rfl
theorem witness_NopAndScheduleChangeNothing :
    (1 : BitVec 5) ≠ 0 ∧ State.reset.params.implClass3 = true ∧
      (State.having State.reset noClasses).params.implClass3 = false := by decide
theorem witness_ImmediateByteIsSignExtended :
    State.reset.params.implClass2 = true ∧ (State.having State.reset noClasses).params.implClass2 = false := by decide
theorem witness_CacheAndTlbInstructionsStop :
    State.reset.mode = .supervisor ∧ (State.user State.reset).mode = .user ∧ Instr.lDcbf 0 0xFFFF = .lDcbf 0 0xFFFF := by
  decide
theorem witness_SpecialRegisterMoves :
    ((State.having State.reset plain).mode = .supervisor ∧ (0x1234 : SprNo) ∈ (State.having State.reset plain).params.sprPlain) ∧
      (State.reset.mode = .supervisor ∧ (0xFFFF : SprNo) ∉ State.reset.params.sprPlain) ∧
      (0xFFFF : SprNo) ≠ 0x1234 := by decide
theorem witness_OnlySupervisorInstructionsFaultInUserMode :
    exec .lTlbia (State.user State.reset) = .fault .privilegeViolation ∧ (State.user State.reset).mode = .user ∧
      4 ≤ insnClass .lTlbia ∧ 4 ≤ insnClass (.lMtsr 0 0) := ⟨rfl, rfl, by decide, by decide⟩
theorem witness_SwitchedOffClassesRaise :
    (insnClass (.hBf 0) = 2 ∧ (State.having State.reset noClasses).params.implClass2 = false) ∧
      (insnClass (.hSched 0) = 3 ∧ (State.having State.reset noClasses).params.implClass3 = false) := by decide
theorem witness_OnlyIllegalAndSwitchedOffInstructionsRaise :
    exec .lIllegal State.reset = .fault (.illegalInstruction 0x1000 (.word 0) 0) ∧
      exec (.hSched 0xFFF) (State.having State.reset noClasses) =
        .fault (.illegalInstruction 0x1000 (.half 0xFFFF) 0) := ⟨rfl, rfl⟩
theorem witness_RegisterZeroIsHardwiredOnlyByParameter :
    (State.having State.reset hardZero).params.r0Zero = true ∧ State.reset.params.r0Zero = false ∧ (1 : RegNo) ≠ 0 := by
  decide

end Sys2Proof.Tests
end

section
/-! The end of the run (00_scope.md R12). -/

namespace Sys2Proof.Proofs

open Sys2Proof Sys2Proof.Machine

/-- The end-of-run test of R12 as a proposition. -/
theorem runOver_iff (s : State) : s.runOver = true ↔ s.params.haltPc = some s.pc ∧ s.dslot = none := by
  simp only [State.runOver, Bool.and_eq_true, beq_iff_eq, Option.isNone_iff_eq_none]

/-- Settles O13: the end-of-run test is `runOver_iff`, and a step where it answers true is `step_over`. -/
theorem runOverStays : Obligations.RunOverStays := by
  intro s
  refine ⟨runOver_iff s, ?_⟩
  intro hpc hslot
  have hover : s.runOver = true := (runOver_iff s).mpr ⟨hpc, hslot⟩
  exact step_over hover

end Sys2Proof.Proofs
end

section
/-! The execution cycle (10_state.md R31) and the delay slot (R30). -/

namespace Sys2Proof.Proofs

open Sys2Proof Sys2Proof.Machine

/-- Settles O6: `step_run`, with `retire` written out over the three outcomes of the instruction. -/
theorem stepRunsTheDecodedInstruction : Obligations.StepRunsTheDecodedInstruction := by
  intro s c i hover hfetch hfits hdec
  rw [step_run hover hfetch hfits hdec]
  cases exec i s <;> rfl

/-- Settles O7: the step answers `advance`, whose three cases are the laws `advance_none`, `advance_close` and
`advance_inside`; in the last the instruction kept the open slot. -/
theorem cycleMovesPcAndDelaySlot : Obligations.CycleMovesPcAndDelaySlot := by
  intro s t c i hover hfetch hfits hdec hexec
  have hstep : step s = .next (advance s c.len t) := by
    rw [step_run hover hfetch hfits hdec]
    exact retire_eq_next.mpr ⟨t, hexec, rfl⟩
  refine ⟨advance s c.len t, hstep, ?closed, ?atEnd, ?inside, by simp, by simp, by simp, by simp, by simp, by simp,
    by simp, by simp⟩
  case closed =>
    intro hnone
    rw [advance_none hnone]
    exact ⟨rfl, rfl⟩
  case atEnd =>
    intro d hd hend
    rw [advance_close hd hend]
    exact ⟨rfl, rfl⟩
  case inside =>
    intro d hd hne
    rw [advance_inside hd hne]
    exact ⟨(exec_next hexec).dslot_of_open hd, rfl⟩

/-- Settles O11: the slot test of `front`. A 32-bit instruction in the slot's second half ends 2 bytes behind the slot,
and e - next is then 2^32 - 2. -/
theorem overrunningTheDelaySlotIsRefused : Obligations.OverrunningTheDelaySlotIsRefused := by
  intro s c d hd hfetch
  have hrefused (hgt : (d.fin - (s.pc + c.len)).toNat > 2) : step s = .refused .delaySlotOverrun := by
    refine step_overrun (runOver_of_slot hd) hfetch ?_
    rw [slotOverrun_some hd]
    exact decide_eq_true hgt
  refine ⟨hrefused, ?_⟩
  rintro w rfl hpc
  apply hrefused
  have hpast : d.fin - (s.pc + (Code.word w).len) = -2 := by
    rw [hpc]
    show d.fin - (d.fin - 2 + 4) = -2
    bv_omega
  rw [hpast]
  decide

/-- The end of the slot a jump or branch opens: 4 bytes behind the instruction itself (R30). -/
theorem effect_opened_slot_end {i : Instr} {s t : State} (h : Effect i s t) (hnone : s.dslot = none) {d : Slot}
    (hd : t.dslot = some d) : d.fin = s.pc + (encode i).len + 4 := by
  cases h with
  | slot => cases hd; rfl
  | link => cases hd; rfl
  | _ => simp [hnone] at hd

/-- A step that leaves a slot open where none was ends 4 bytes before the slot's end. -/
theorem step_opened_slot_end {s u : State} (hnone : s.dslot = none) (hover : s.runOver = false)
    (hstep : step s = .next u) {d : Slot} (hd : u.dslot = some d) : d.fin = u.pc + 4 := by
  rcases step_next hstep with ⟨hyes, -⟩ | ⟨c, i, t, -, hdec, -, hexec, rfl⟩
  · rw [hover] at hyes; cases hyes
  · rw [advance_none hnone] at hd ⊢
    have hfin := effect_opened_slot_end (exec_next hexec) hnone hd
    rwa [decode_len hdec] at hfin

/-- An instruction whose end is at most 2 bytes before the slot's passes the slot test of R31. -/
theorem slotOverrun_within {s : State} {d : Slot} (hd : s.dslot = some d) {len : Word}
    (hle : (d.fin - (s.pc + len)).toNat ≤ 2) : slotOverrun s len = false := by
  rw [slotOverrun_some hd]
  exact decide_eq_false (Nat.not_lt.mpr hle)

/-- A completed instruction that ends where the open slot ends hands control to the slot's target. -/
theorem step_ends_slot {s t : State} {target fin : Word} (hd : s.dslot = some ⟨some target, fin⟩) {c : Code}
    {i : Instr} (hend : s.pc + c.len = fin) (hfetch : fetch s s.pc = .ok c) (hdec : decode c = .ok i)
    (hexec : exec i s = .next t) : ∃ z, step s = .next z ∧ z.pc = target ∧ z.dslot = none := by
  have hfits : slotOverrun s c.len = false := slotOverrun_within hd (by simp [hend])
  obtain ⟨z, hz, -, hclose, -⟩ :=
    cycleMovesPcAndDelaySlot s t c i (runOver_of_slot hd) hfetch hfits hdec hexec
  obtain ⟨hslot, hpc⟩ := hclose _ hd hend
  exact ⟨z, hz, hpc, hslot⟩

/-- A completed 16-bit instruction in the first half of an open slot leaves the slot open and the pc at its second half. -/
theorem step_first_half {s t u : State} {d : Slot} (hd : s.dslot = some d) (hfin : d.fin = s.pc + 4) {h : Half}
    {i : Instr} (hfetch : fetch s s.pc = .ok (.half h)) (hdec : decode (.half h) = .ok i)
    (hexec : exec i s = .next t) (hstep : step s = .next u) : u.dslot = some d ∧ u.pc = s.pc + 2 := by
  have hleft : d.fin - (s.pc + 2) = 2 := by rw [hfin]; bv_omega
  have hinside : s.pc + 2 ≠ d.fin := by rw [hfin]; bv_omega
  have hfits : slotOverrun s (Code.half h).len = false := slotOverrun_within hd (hleft ▸ by decide)
  obtain ⟨z, hz, -, -, hkeep, -⟩ :=
    cycleMovesPcAndDelaySlot s t (.half h) i (runOver_of_slot hd) hfetch hfits hdec hexec
  cases hstep.symm.trans hz
  exact hkeep d hd hinside

/-- Settles O8: the slot ends 4 bytes behind the transfer; a 32-bit instruction ends there at once, and of two 16-bit
ones the first stops at the second half. -/
theorem takenTransferReachesTargetAfterFourBytes : Obligations.TakenTransferReachesTargetAfterFourBytes := by
  intro s u target fin hnone hover hstep hd
  have hfin : fin = u.pc + 4 := step_opened_slot_end hnone hover hstep hd
  refine ⟨hfin, ?word, ?halves⟩
  case word =>
    intro w i v hfetch hdec hexec
    exact step_ends_slot (c := .word w) hd hfin.symm hfetch hdec hexec
  case halves =>
    intro h h' i i' v v' u' hfetch hdec hexec hstep' hfetch' hdec' hexec'
    obtain ⟨hd', hpc'⟩ := step_first_half hd hfin hfetch hdec hexec hstep'
    have hend : u'.pc + (Code.half h').len = fin := by
      rw [hpc', hfin]
      show u.pc + 2 + 2 = u.pc + 4
      bv_omega
    exact step_ends_slot hd' hend hfetch' hdec' hexec'

/-- A jump that links is refused in an open slot too: the link register's write comes to nothing (R30). -/
theorem jumpAndLink_in_slot {s : State} {d : Slot} (hd : s.dslot = some d) (target delayAddr : Word) :
    jumpAndLink target delayAddr s = .refused .controlTransferInDelaySlot :=
  delayed_in_slot (by simpa using hd) true target delayAddr

/-- An implemented Class 2 instruction does what its own rule says (R227 item 8). -/
theorem needClass2_of_on {insn : Code} {s : State} (hon : s.params.implClass2 = true) (r : Result) :
    needClass2 insn s r = r :=
  if_pos hon

/-- Settles O14: each of the nine ends in `delayed` or `jumpAndLink`, the Class 2 ones behind the class test. -/
theorem noTransferInDelaySlot : Obligations.NoTransferInDelaySlot := by
  rintro i s d htransfer hd ⟨hclass2, -⟩
  cases i with
  | lJ x => exact delayed_in_slot hd _ _ _
  | lJal x => exact jumpAndLink_in_slot hd _ _
  | lBnf x => exact delayed_in_slot hd _ _ _
  | lBf x => exact delayed_in_slot hd _ _ _
  | hJalr a => exact jumpAndLink_in_slot hd _ _
  | hJal9 x => exact (needClass2_of_on (hclass2 rfl) _).trans (jumpAndLink_in_slot hd _ _)
  | hJalA x => exact (needClass2_of_on (hclass2 rfl) _).trans (jumpAndLink_in_slot hd _ _)
  | hBnf x => exact (needClass2_of_on (hclass2 rfl) _).trans (delayed_in_slot hd _ _ _)
  | hBf x => exact (needClass2_of_on (hclass2 rfl) _).trans (delayed_in_slot hd _ _ _)
  | _ => cases htransfer

end Sys2Proof.Proofs
end

section
/-! Who writes the flags, the delay slot, the special registers, the mode and the parameters (10_state.md R27 to R32). -/

namespace Sys2Proof.Proofs

open Sys2Proof Sys2Proof.Machine

/-- Settles O17: a run that is over stays, and else neither the instruction nor the end of the cycle writes either. -/
theorem stepKeepsModeAndParameters : Obligations.StepKeepsModeAndParameters := by
  intro s u hstep
  rcases step_next hstep with ⟨-, rfl⟩ | ⟨c, i, t, -, -, -, hexec, rfl⟩
  · exact ⟨rfl, rfl⟩
  · rw [advance_mode, advance_params]
    exact ⟨(exec_next hexec).mode, (exec_next hexec).params⟩

theorem effect_flag_of_not_compare {i : Instr} {s t : State} (h : Effect i s t) (hi : isCompare i = false) :
    t.flag = s.flag := by
  cases h with
  | flag hc => rw [hi] at hc; cases hc
  | _ => simp

/-- Settles O18. -/
theorem onlyComparesWriteTheFlag : Obligations.OnlyComparesWriteTheFlag := by
  intro i s t hexec hi
  exact effect_flag_of_not_compare (exec_next hexec) hi

/-- R28: "sets it to 1 on a zero divisor and leaves it unchanged otherwise". -/
theorem noteDivisor_divflag (s : State) (d : Word) :
    (s.noteDivisor d).divflag = if d = 0 then true else s.divflag := by
  unfold State.noteDivisor
  split <;> rfl

theorem effect_divflag_of_no_divisor {i : Instr} {s t : State} (h : Effect i s t) (hi : divisorOf i s = none) :
    t.divflag = s.divflag := by
  cases h with
  | quotient a q d hd => rw [hi] at hd; cases hd
  | _ => simp

/-- The state both divisions leave (R141, R142): a quotient written, the divisor noted. -/
theorem exec_division {i : Instr} {s t : State} {d : Word} (hd : divisorOf i s = some d) (h : exec i s = .next t) :
    ∃ a q, t = (s.writeQuotient a q).noteDivisor d := by
  cases i with
  | lDiv32s a b c => cases hd; cases (needClass3_eq_next.mp h).2; exact ⟨a, _, rfl⟩
  | lDiv32u a b c => cases hd; cases (needClass3_eq_next.mp h).2; exact ⟨a, _, rfl⟩
  | _ => cases hd

/-- Settles O19: by the divisor the instruction has, if any. -/
theorem onlyZeroDivisorsSetTheDivisorFlag : Obligations.OnlyZeroDivisorsSetTheDivisorFlag := by
  intro i s t hexec
  cases hdiv : divisorOf i s with
  | none => simpa using effect_divflag_of_no_divisor (exec_next hexec) hdiv
  | some d =>
    obtain ⟨a, q, rfl⟩ := exec_division hdiv hexec
    simp [noteDivisor_divflag]

theorem effect_dslot_of_not_transfer {i : Instr} {s t : State} (h : Effect i s t) (hi : isTransfer i = false) :
    t.dslot = s.dslot := by
  cases h with
  | slot ht => rw [hi] at ht; cases ht
  | link ht => rw [hi] at ht; cases ht
  | _ => simp

/-- Settles O23. -/
theorem onlyTransfersOpenASlot : Obligations.OnlyTransfersOpenASlot := by
  intro i s t hexec
  exact ⟨(exec_next hexec).pc, effect_dslot_of_not_transfer (exec_next hexec)⟩

/-- l.mtsr completes in Supervisor mode only (R228), and no other effect writes a special register. -/
theorem effect_spr_of_user {i : Instr} {s t : State} (h : Effect i s t) (hm : s.mode = .user) : t.spr = s.spr := by
  cases h with
  | special n a hi hsup => rw [hm] at hsup; cases hsup
  | _ => simp

/-- Settles O24. -/
theorem userModeStepKeepsSpecialRegisters : Obligations.UserModeStepKeepsSpecialRegisters := by
  intro s u hm hstep
  have hmode : u.mode = .user := (stepKeepsModeAndParameters s u hstep).1.trans hm
  refine ⟨fun n => State.readSpr_congr ?_ n, hmode⟩
  rcases step_next hstep with ⟨-, rfl⟩ | ⟨c, i, t, -, -, -, hexec, rfl⟩
  · rfl
  · rw [advance_spr]
    exact effect_spr_of_user (exec_next hexec) hm

end Sys2Proof.Proofs
end

section
/-! The state a launch starts from (10_state.md R35), and general register 0 (R22). -/

namespace Sys2Proof.Proofs

open Sys2Proof Sys2Proof.Machine

/-- At a launch only TEXT's bytes hold a value. -/
theorem byteAt_resetWith (p : Params) (x : Word) : (State.resetWith p).byteAt x = lookupKey x.toNat p.text := by
  simp only [State.byteAt, State.resetWith, lookupKey_nil]
  cases lookupKey x.toNat p.text <;> rfl

/-- Settles O57: field by field as `State.resetWith` sets them; memory by `byteAt_resetWith`. -/
theorem launchGivesPcModeSlotAndMemory : Obligations.LaunchGivesPcModeSlotAndMemory :=
  ⟨fun p => ⟨rfl, rfl, rfl, rfl, byteAt_resetWith p⟩, rfl, rfl⟩

/-- Every register holds 0, whether register 0 is hard-wired or not (log 2). -/
theorem readReg_resetWith (p : Params) (r : RegNo) : (State.resetWith p).readReg r = 0 := by
  unfold State.readReg
  split
  · rfl
  · simp [State.resetWith, Vector.get_eq_getElem]

/-- Settles O58: no special register is listed, so each reads 0. -/
theorem launchRegistersAreZeroByChoice : Obligations.LaunchRegistersAreZeroByChoice :=
  fun p r _ => ⟨readReg_resetWith p r, rfl, rfl, rfl⟩

/-- The hard-wired register 0 (R8, R22). -/
theorem register_zero_hardwired {s : State} (hz : s.params.r0Zero = true) (v : Word) :
    s.readReg 0 = 0 ∧ s.writeReg 0 v = s := by
  simp [State.readReg, State.writeReg, hz]

/-- Settles O59: register 0 by `register_zero_hardwired`, storage by the two read-after-write laws. -/
theorem registerZeroIsHardwiredOnlyByParameter : Obligations.RegisterZeroIsHardwiredOnlyByParameter := by
  intro s a v
  refine ⟨fun hz => register_zero_hardwired hz v, ?_, fun _ hr => State.readReg_writeReg_other s v hr⟩
  intro hstorage
  rw [State.readReg_writeReg_same, if_neg]
  rintro ⟨hz, rfl⟩
  simp [hz] at hstorage

end Sys2Proof.Proofs
end

section
/-! The invariant of a run (20_memory.md R46, R55; 10_state.md R26, R30, R31): the stored data and the program
text, the pc and the open slot. -/

namespace Sys2Proof.Proofs

open Sys2Proof Sys2Proof.Machine

/-- The part of the invariant about memory, the special registers and TEXT. -/
structure DataInv (s : State) : Prop where
  mem_wf : Memory.wf s.mem = true
  spr_wf : sprWf s.spr = true
  stored : s.mem.all (fun c => inRam s.params c.1 && !inText s.params c.1) = true
  text_wf : Memory.wf s.params.text = true
  text_inRam : s.params.text.all (fun c => inRam s.params c.1) = true

/-- The part of the invariant about an open slot `d`, with the pc at `pc`. -/
structure SlotInv (pc : Word) (d : Slot) : Prop where
  fin_even : d.fin.getLsbD 0 = false
  target_even : ∀ x, d.target = some x → x.getLsbD 0 = false
  at_half : pc = d.fin - 4 ∨ pc = d.fin - 2

theorem slotOk_of_none {s : State} (hd : s.dslot = none) : slotOk s = true := by
  simp only [slotOk, hd]

theorem slotOk_of_some {s : State} {d : Slot} (hd : s.dslot = some d) : slotOk s = true ↔ SlotInv s.pc d := by
  have hiff : slotOk s = true ↔
      (d.fin.getLsbD 0 = false ∧ ∀ x, d.target = some x → x.getLsbD 0 = false) ∧
        (s.pc = d.fin - 4 ∨ s.pc = d.fin - 2) := by
    cases ht : d.target <;> simp [slotOk, hd, ht]
  exact hiff.trans ⟨fun ⟨⟨hfin, htarget⟩, hpc⟩ => ⟨hfin, htarget, hpc⟩,
    fun ⟨hfin, htarget, hpc⟩ => ⟨⟨hfin, htarget⟩, hpc⟩⟩

theorem inv_iff {s : State} : s.inv = true ↔ DataInv s ∧ s.pc.getLsbD 0 = false ∧ slotOk s = true := by
  simp only [State.inv, Bool.and_eq_true, Bool.not_eq_true']
  constructor
  · rintro ⟨⟨⟨⟨⟨⟨hmem, hspr⟩, hstored⟩, htext⟩, hram⟩, hpc⟩, hslot⟩
    exact ⟨⟨hmem, hspr, hstored, htext, hram⟩, hpc, hslot⟩
  · rintro ⟨⟨hmem, hspr, hstored, htext, hram⟩, hpc, hslot⟩
    exact ⟨⟨⟨⟨⟨⟨hmem, hspr⟩, hstored⟩, htext⟩, hram⟩, hpc⟩, hslot⟩

/-! ### Memory and special registers -/

/-- What a completed instruction does to memory: nothing, or it is a store and its bytes are the whole effect (R41). -/
theorem effect_mem {i : Instr} {s t : State} (h : Effect i s t) :
    t.mem = s.mem ∨ ∃ ea bs, accessOf i s = some (ea, bs.length, true) ∧ Writable s ea bs.length ∧
      t = s.putBytes ea bs := by
  cases h with
  | store ea bs haccess hw => exact .inr ⟨ea, bs, haccess, hw, rfl⟩
  | _ => exact .inl (by simp)

theorem effect_sprWf {i : Instr} {s t : State} (h : Effect i s t) (hs : sprWf s.spr = true) : sprWf t.spr = true := by
  cases h with
  | special n a hi hm v => exact sprWf_writeSpr hs n v
  | _ => simpa using hs

/-- A store writes bytes in RAM and outside TEXT only (R46, R55). -/
theorem stored_putBytes {s : State} {ea : Word} {bs : List Byte} (hw : Writable s ea bs.length)
    (h : s.mem.all (fun c => inRam s.params c.1 && !inText s.params c.1) = true) :
    (s.putBytes ea bs).mem.all (fun c => inRam s.params c.1 && !inText s.params c.1) = true := by
  obtain ⟨-, hbytes⟩ := hw
  refine mem_all_putBytes (fun a => inRam s.params a && !inText s.params a) ea bs h ?_
  intro k hk
  obtain ⟨hram, htext⟩ := hbytes k hk
  rw [hram, htext]
  rfl

theorem effect_dataInv {i : Instr} {s t : State} (h : Effect i s t) (hs : DataInv s) : DataInv t := by
  obtain ⟨hmem, hspr, hstored, htext, hram⟩ := hs
  have hspr' : sprWf t.spr = true := effect_sprWf h hspr
  have hp : t.params = s.params := h.params
  rcases effect_mem h with hsame | ⟨ea, bs, -, hw, rfl⟩
  · exact ⟨hsame ▸ hmem, hspr', by rwa [hsame, hp], by rwa [hp], by rwa [hp]⟩
  · exact ⟨memory_wf_putBytes ea bs hmem, hspr', by rw [hp]; exact stored_putBytes hw hstored, by rwa [hp],
      by rwa [hp]⟩

/-- The end of the cycle writes none of what `DataInv` is about. -/
theorem advance_dataInv {s t : State} {len : Word} (h : DataInv t) : DataInv (advance s len t) := by
  obtain ⟨hmem, hspr, hstored, htext, hram⟩ := h
  exact ⟨by simpa using hmem, by simpa using hspr, by simpa using hstored, by simpa using htext,
    by simpa using hram⟩

/-! ### The pc and the slot -/

theorem pc_add_len_even {pc : Word} (h : pc.getLsbD 0 = false) (c : Code) : (pc + c.len).getLsbD 0 = false := by
  rw [getLsbD_zero_add, h]
  rcases Code.len_eq c with hlen | hlen <;> simp [hlen]

/-- A jump or branch opens a slot with an even target, if it has one (R30). -/
theorem effect_opened_slot_target_even {i : Instr} {s t : State} (h : Effect i s t) (hnone : s.dslot = none) {d : Slot}
    (hd : t.dslot = some d) {x : Word} (hx : d.target = some x) : x.getLsbD 0 = false := by
  cases h with
  | slot _ _ target he => cases hd; exact he x hx
  | link _ _ target he => cases hd; cases hx; exact he
  | _ => simp [hnone] at hd

/-- The slot a completed instruction opens begins where the instruction ends, and is 4 bytes long. -/
theorem effect_opened_slotInv {c : Code} {i : Instr} {s t : State} (h : Effect i s t) (hdec : decode c = .ok i)
    (hnone : s.dslot = none) (hpc : s.pc.getLsbD 0 = false) {d : Slot} (hd : t.dslot = some d) :
    SlotInv (s.pc + c.len) d := by
  have hfin : d.fin = s.pc + c.len + 4 := by
    rw [← decode_len hdec]
    exact effect_opened_slot_end h hnone hd
  refine ⟨?_, fun x hx => effect_opened_slot_target_even h hnone hd hx, .inl ?_⟩
  · rw [hfin, getLsbD_zero_add, pc_add_len_even hpc]
    rfl
  · rw [hfin]
    exact (BitVec.add_sub_cancel _ _).symm

/-- An instruction that passes the slot test ends at the slot's end or at its second half (R31). -/
theorem slot_progress {s : State} {d : Slot} (hd : s.dslot = some d) (hpc : s.pc = d.fin - 4 ∨ s.pc = d.fin - 2)
    {c : Code} (hfits : slotOverrun s c.len = false) : s.pc + c.len = d.fin ∨ s.pc + c.len = d.fin - 2 := by
  rw [slotOverrun_some hd, decide_eq_false_iff_not] at hfits
  rcases hpc with hfirst | hsecond <;> rcases Code.len_eq c with hlen | hlen
  · right; rw [hfirst, hlen]; bv_omega
  · left; rw [hfirst, hlen]; bv_omega
  · left; rw [hsecond, hlen]; bv_omega
  · rw [hsecond, hlen] at hfits
    have hpast : d.fin - (d.fin - 2 + 4) = -2 := by bv_omega
    rw [hpast] at hfits
    exact absurd (by decide) hfits

/-- With no slot open the pc moves behind the instruction, which may have opened a slot there. -/
theorem advance_control_of_none {c : Code} {i : Instr} {s t : State} (h : Effect i s t) (hdec : decode c = .ok i)
    (hnone : s.dslot = none) (hpc : s.pc.getLsbD 0 = false) :
    (advance s c.len t).pc.getLsbD 0 = false ∧ slotOk (advance s c.len t) = true := by
  rw [advance_none hnone]
  refine ⟨pc_add_len_even hpc c, ?_⟩
  cases hd : t.dslot with
  | none => exact slotOk_of_none rfl
  | some d => exact (slotOk_of_some rfl).mpr (effect_opened_slotInv h hdec hnone hpc hd)

/-- In an open slot the instruction ends the slot, and control is at its target or end, or the slot's second half is
next. -/
theorem advance_control_of_some {c : Code} {i : Instr} {s t : State} (h : Effect i s t)
    (hfits : slotOverrun s c.len = false) {d : Slot} (hd : s.dslot = some d) (hpc : s.pc.getLsbD 0 = false)
    (hslot : SlotInv s.pc d) : (advance s c.len t).pc.getLsbD 0 = false ∧ slotOk (advance s c.len t) = true := by
  obtain ⟨hfin, htarget, hhalf⟩ := hslot
  by_cases hend : s.pc + c.len = d.fin
  · rw [advance_close hd hend]
    refine ⟨?_, slotOk_of_none rfl⟩
    cases hx : d.target with
    | none => exact hfin
    | some x => exact htarget x hx
  · have hsecond : s.pc + c.len = d.fin - 2 := (slot_progress hd hhalf hfits).resolve_left hend
    rw [advance_inside hd hend]
    refine ⟨pc_add_len_even hpc c, ?_⟩
    rw [h.dslot_of_open hd]
    exact (slotOk_of_some rfl).mpr ⟨hfin, htarget, .inr hsecond⟩

/-- Settles O15: a run that is over stays; else the instruction and the end of the cycle keep the data
(`effect_dataInv`, `advance_dataInv`), and the pc and the slot by whether a slot was open. -/
theorem stepKeepsInv : Obligations.StepKeepsInv := by
  intro s u hinv hstep
  rcases step_next hstep with ⟨-, rfl⟩ | ⟨c, i, t, -, hdec, hfits, hexec, rfl⟩
  · exact hinv
  · obtain ⟨hdata, hpc, hslot⟩ := inv_iff.mp hinv
    have heffect : Effect i s t := exec_next hexec
    refine inv_iff.mpr ⟨advance_dataInv (effect_dataInv heffect hdata), ?_⟩
    cases hd : s.dslot with
    | none => exact advance_control_of_none heffect hdec hd hpc
    | some d => exact advance_control_of_some heffect hfits hd hpc ((slotOk_of_some hd).mp hslot)

/-- Settles O16: `launchOk` is what a launch has to bring, since nothing is stored yet and no slot is open; the default
parameters meet it. -/
theorem launchStatesHaveInv : Obligations.LaunchStatesHaveInv := by
  have hlaunch (p : Params) (hp : launchOk p = true) : (State.resetWith p).inv = true := by
    simp only [launchOk, Bool.and_eq_true, Bool.not_eq_true'] at hp
    obtain ⟨⟨htext, hram⟩, hpc⟩ := hp
    exact inv_iff.mpr ⟨⟨rfl, rfl, rfl, htext, hram⟩, hpc, slotOk_of_none rfl⟩
  exact ⟨hlaunch, hlaunch Params.default (by decide)⟩

end Sys2Proof.Proofs
end

section
/-! What changes memory (20_memory.md R41, R45, R53, R55), and what a load reads after a store (R44, R53). -/

namespace Sys2Proof.Proofs

open Sys2Proof Sys2Proof.Machine

/-- Settles O20: by `effect_mem`. -/
theorem onlyStoresChangeMemory : Obligations.OnlyStoresChangeMemory := by
  intro i s t hexec
  have heffect : Effect i s t := exec_next hexec
  rcases effect_mem heffect with hsame | ⟨ea, bs, haccess, -, rfl⟩
  · have hall : SameMemory s t := fun x => State.byteAt_congr hsame heffect.params x
    exact ⟨fun _ _ _ x _ => hall x, fun _ => hall⟩
  · refine ⟨?_, fun hno => absurd haccess (hno ea bs.length)⟩
    intro ea' n haccess'
    cases haccess.symm.trans haccess'
    exact fun x hx => State.byteAt_putBytes_other s ea bs hx

/-- An address in TEXT reads TEXT's byte, whatever is stored (R55; log 22). -/
theorem byteAt_of_inText {s : State} {x : Word} (h : inText s.params x.toNat = true) :
    s.byteAt x = lookupKey x.toNat s.params.text := by
  obtain ⟨b, hb⟩ := Option.isSome_iff_exists.mp h
  simp only [State.byteAt, hb]

/-- Settles O22: TEXT's bytes stand in the parameters, which no step changes. -/
theorem textBytesNeverChange : Obligations.TextBytesNeverChange := by
  intro s t x hstep htext
  have hparams : t.params = s.params := (stepKeepsModeAndParameters s t hstep).2
  have htext' : inText t.params x.toNat = true := hparams ▸ htext
  exact ⟨by rw [byteAt_of_inText htext, byteAt_of_inText htext', hparams], htext'⟩

/-- Bytes just stored can be read back: a store passes every test a load of the same bytes has. -/
theorem readable_putBytes {s : State} {ea : Word} {bs : List Byte} (hw : Writable s ea bs.length)
    (hlen : bs.length ≤ 4294967296) : Readable (s.putBytes ea bs) ea bs := by
  obtain ⟨haligned, hbytes⟩ := hw
  refine ⟨haligned, fun k hk => ⟨?_, ?_⟩⟩
  · simpa using (hbytes k hk).1
  · exact State.byteAt_putBytes_same s ea bs hlen (fun j hj => (hbytes j hj).2) hk

/-- Each byte of a readable datum is a readable byte. -/
theorem readable_byte {s : State} {ea : Word} {bs : List Byte} (h : Readable s ea bs) {k : Nat} {b : Byte}
    (hb : bs[k]? = some b) : Readable s (ea + BitVec.ofNat 32 k) [b] := by
  obtain ⟨hk, -⟩ := List.getElem?_eq_some_iff.mp hb
  obtain ⟨hram, hbyte⟩ := h.2 k hk
  refine ⟨Nat.mod_one _, fun j hj => ?_⟩
  obtain rfl : j = 0 := by simpa using hj
  exact ⟨by simpa using hram, by simpa [hb] using hbyte⟩

/-- A store leaves the registers alone, so the same operand names the same address after it. -/
theorem effAddr_putBytes {n : Nat} (s : State) (ea : Word) (bs : List Byte) (a : RegNo) (j : BitVec n) :
    effAddr (s.putBytes ea bs) a j = effAddr s a j := by
  unfold effAddr
  rw [State.readReg_congr (State.putBytes_regs s ea bs) (State.putBytes_params s ea bs)]

/-- A completed store leaves its bytes readable where the same operand points. -/
theorem readable_of_memWrite {n : Nat} {s t : State} {a : RegNo} {j : BitVec n} {bs : List Byte}
    (hlen : bs.length ≤ 4294967296) (h : memWrite s (effAddr s a j) bs = .next t) :
    Readable t (effAddr t a j) bs ∧ effAddr t a j = effAddr s a j := by
  obtain ⟨hw, rfl⟩ := memWrite_eq_next.mp h
  have haddr := effAddr_putBytes s (effAddr s a j) bs a j
  exact ⟨by rw [haddr]; exact readable_putBytes hw hlen, haddr⟩

/-- A load whose access gives `v` writes `v` and nothing else (R110). -/
theorem regResult_loadInto {s : State} {r : Except Stop Word} {v : Word} (c : RegNo) (h : r = .ok v) :
    RegResult s c v (loadInto s c r) := by
  subst h
  exact regResult_writeReg s c v

/-- The bytes of a word, put together big-endian, are the word. -/
theorem join_bytes32 (v : Word) :
    v.extractLsb' 24 8 ++ v.extractLsb' 16 8 ++ v.extractLsb' 8 8 ++ v.extractLsb' 0 8 = v := by
  rw [extract_join v 16 8 8, extract_join v 8 16 8, extract_join v 0 24 8]
  exact extract_all v

theorem join_bytes16 (v : Half) : v.extractLsb' 8 8 ++ v.extractLsb' 0 8 = v := by
  exact (extract_join v 0 8 8).trans (extract_all v)

theorem getElem?_bytes32 (v : Word) {k : Nat} (hk : k < 4) :
    (bytes32 v)[k]? = some (v.extractLsb' (24 - 8 * k) 8) := by
  match k, hk with
  | 0, _ | 1, _ | 2, _ | 3, _ => rfl

/-- Settles O37: the stored bytes are readable at the load's address (`readable_of_memWrite`), and together they are the
stored value. -/
theorem loadAfterStoreSeesTheValue : Obligations.LoadAfterStoreSeesTheValue := by
  intro s t a b c j
  refine ⟨?word, ?half, ?byte⟩
  case word =>
    intro hstore
    obtain ⟨hread, haddr⟩ := readable_of_memWrite (bs := bytes32 (s.readReg b)) (by simp [bytes32]) hstore
    have hload : memRead32 t (effAddr t a j) = .ok (s.readReg b) := by
      rw [memRead32_of_readable hread, join_bytes32]
    refine ⟨regResult_loadInto c hload, fun k hk => ?_⟩
    rw [haddr] at hread
    exact memRead8_of_readable (readable_byte hread (getElem?_bytes32 _ hk))
  case half =>
    intro hstore
    obtain ⟨hread, -⟩ :=
      readable_of_memWrite (bs := bytes16 ((s.readReg b).extractLsb' 0 16)) (by simp [bytes16]) hstore
    have hload : memRead16 t (effAddr t a j) = .ok ((s.readReg b).extractLsb' 0 16) := by
      rw [memRead16_of_readable hread, join_bytes16]
    exact regResult_loadInto c (congrArg (Except.map zext) hload)
  case byte =>
    intro hstore
    obtain ⟨hread, -⟩ :=
      readable_of_memWrite (bs := bytes8 ((s.readReg b).extractLsb' 0 8)) (by simp [bytes8]) hstore
    exact regResult_loadInto c (congrArg (Except.map zext) (memRead8_of_readable hread))

end Sys2Proof.Proofs
end

section
/-! What a fetch reads (20_memory.md R58). -/

namespace Sys2Proof.Proofs

open Sys2Proof Sys2Proof.Machine

/-- Two half words side by side are their four bytes side by side. -/
theorem append_halves (b0 b1 b2 b3 : Byte) : (b0 ++ b1 ++ (b2 ++ b3) : Word) = b0 ++ b1 ++ b2 ++ b3 := by
  rw [BitVec.append_assoc (x₁ := b0 ++ b1), BitVec.cast_eq]

/-- Settles O9: `fetch_short` for a 16-bit instruction; for a 32-bit one `fetch_long`, whose second half is at a + 2. -/
theorem fetchReadsTextBigEndian : Obligations.FetchReadsTextBigEndian := by
  intro s a b0 b1 heven h0 h1
  have hfirst : fetchHalf s a = .ok (b0 ++ b1) := fetchHalf_eq_ok h0 h1
  refine ⟨hfirst, ?short, ?long⟩
  case short =>
    intro htop
    exact fetch_short heven hfirst (Bool.eq_false_iff.mpr (mt (isLong_iff _).mp htop))
  case long =>
    intro b2 b3 htop halign h2 h3
    have haddr : a + 2 + 1 = a + 3 := BitVec.add_assoc a 2 1
    have hsecond : fetchHalf s (a + 2) = .ok (b2 ++ b3) := fetchHalf_eq_ok h2 (by rw [haddr]; exact h3)
    rw [fetch_long heven hfirst ((isLong_iff _).mpr htop) halign, hsecond]
    exact congrArg (fun w => Except.ok (Code.word w)) (append_halves b0 b1 b2 b3)

end Sys2Proof.Proofs
end

section
/-! Facts about the decoder and the encoders (30_encoding.md R63 to R81): the test of a reserved field, and each
format's encoder on the fields of a word. -/

namespace Sys2Proof.Proofs

open Sys2Proof Sys2Proof.Machine

/-! ### Reserved fields (30_encoding.md R81) -/

section
variable {n : Nat} {x : BitVec n} {i j : Instr}

theorem ifZero_eq_ok : ifZero x.toNat i = .ok j ↔ x = 0#n ∧ i = j := by
  have hzero : x.toNat = 0 ↔ x = 0#n := BitVec.toNat_inj (y := 0#n)
  unfold ifZero
  split <;> simp_all

theorem ifZero_eq_reserved : ifZero x.toNat i = .error .reservedField ↔ x ≠ 0#n := by
  have hzero : x.toNat = 0 ↔ x = 0#n := BitVec.toNat_inj (y := 0#n)
  unfold ifZero
  split <;> simp_all

theorem ifZero_ne_unassigned : ifZero x.toNat i ≠ .error .unassigned := by
  unfold ifZero
  split <;> simp

end

theorem append_eq_zero_iff {m n : Nat} (x : BitVec m) (y : BitVec n) :
    x ++ y = 0#(m + n) ↔ x = 0#m ∧ y = 0#n := by
  simp [← BitVec.toNat_inj, Nat.or_eq_zero_iff, Nat.shiftLeft_eq]

/-! ### The encoders on the fields of a word -/

section
variable {w : Word} {h : Half}

theorem encLX_fields {op : BitVec 6} (hop : op6 w = op) : encLX op (immX26 w) = .word w := by
  subst hop
  exact congrArg Code.word (join_encLX w)

theorem encLLS_fields {op : BitVec 7} (hop : w.extractLsb' 25 7 = op) :
    encLLS op (fieldA w) (fieldB w) (immJ17 w) = .word w := by
  subst hop
  exact congrArg Code.word (join_encLLS w)

theorem encLI18_fields {op : BitVec 6} (hop : op6 w = op) :
    encLI18 op (fieldA w) (fieldB w) (immI18 w) = .word w := by
  subst hop
  exact congrArg Code.word (join_encLI18 w)

theorem encLI16_fields {op : BitVec 8} (hop : w.extractLsb' 24 8 = op) :
    encLI16 op (fieldA w) (fieldB w) (immI16 w) = .word w := by
  subst hop
  exact congrArg Code.word (join_encLI16 w)

/-- Format `L-I16A`, whose field B is reserved (R81). -/
theorem encLI16_fields_of_B_zero {op : BitVec 8} (hop : w.extractLsb' 24 8 = op) (hr : w.extractLsb' 16 4 = 0#4) :
    encLI16 op (fieldA w) 0#4 (immI16 w) = .word w := by
  have henc := encLI16_fields hop
  rwa [show fieldB w = 0#4 from hr] at henc

theorem encLR_fields {op : BitVec 4} (hw : w.extractLsb' 24 8 = 0x2C#8) (hop : minor w = op)
    (hr : w.extractLsb' 0 8 = 0#8) : encLR op (fieldA w) (fieldB w) (fieldC w) = .word w := by
  have hjoin := join_encLR w
  rw [hw, hop, hr] at hjoin
  exact congrArg Code.word hjoin

theorem encLRL_fields {op : BitVec 4} (hw : w.extractLsb' 24 8 = 0x2C#8) (hop : minor w = op)
    (hr : w.extractLsb' 0 3 = 0#3) : encLRL op (fieldA w) (fieldB w) (fieldC w) (immL5 w) = .word w := by
  have hjoin := join_encLRL w
  rw [hw, hop, hr] at hjoin
  exact congrArg Code.word hjoin

theorem encLS_fields {op : BitVec 4} (hw : w.extractLsb' 24 8 = 0x30#8) (hop : minor w = op) :
    encLS op (fieldA w) (immS16 w) = .word w := by
  have hjoin := join_encLS w
  rw [hw, hop] at hjoin
  exact congrArg Code.word hjoin

theorem encHRR_fields {op : BitVec 8} (hop : h.extractLsb' 8 8 = op) : encHRR op (hA h) (hB h) = .half h := by
  subst hop
  exact congrArg Code.half (join_encHRR h)

theorem encHR1_fields {op : BitVec 3} (hh : h.extractLsb' 8 8 = 0x4B#8) (hr : h.extractLsb' 3 1 = 0#1)
    (hop : h.extractLsb' 0 3 = op) : encHR1 op (hA h) = .half h := by
  have hjoin := join_encHR1 h
  rw [hh, hr, hop] at hjoin
  exact congrArg Code.half hjoin

theorem encHNRR_fields {op : BitVec 4} (hop : h.extractLsb' 12 4 = op) :
    encHNRR op (hN h) (hA h) (hB h) = .half h := by
  subst hop
  exact congrArg Code.half (join_encHNRR h)

/-- Format `H-M`: the immediate stands on both sides of the register (R71). -/
theorem encHM_fields {op : BitVec 4} (hop : h.extractLsb' 12 4 = op) :
    encHNRR op ((hM h).extractLsb' 4 4) (hA h) ((hM h).extractLsb' 0 4) = .half h := by
  subst hop
  exact congrArg Code.half (join_encHM h)

theorem encHX_fields {op : BitVec 4} (hop : h.extractLsb' 12 4 = op) : encHX op (hX h) = .half h := by
  subst hop
  exact congrArg Code.half (join_encHX h)

/-! ### Opcodes of more than one field -/

/-- The 7-bit opcode of format `L-LS`. -/
theorem opcode7_eq {o : BitVec 6} {g : BitVec 1} (ho : op6 w = o) (hg : w.extractLsb' 25 1 = g) :
    w.extractLsb' 25 7 = o ++ g := by
  subst ho hg
  exact (extract_join w 25 6 1).symm

theorem firstByte_eq {o : BitVec 6} {g : BitVec 2} (ho : op6 w = o) (hg : w.extractLsb' 24 2 = g) :
    w.extractLsb' 24 8 = o ++ g := by
  subst ho hg
  exact (extract_join w 24 6 2).symm

theorem half_firstByte_eq {o g : BitVec 4} (ho : h.extractLsb' 12 4 = o) (hg : h.extractLsb' 8 4 = g) :
    h.extractLsb' 8 8 = o ++ g := by
  subst ho hg
  exact (extract_join h 8 4 4).symm

/-- With the reserved field of l.dcia, l.dcfa and l.tlbia zero (R81), the fields A and S of their format are zero. -/
theorem systemReserved_fields (hr : w.extractLsb' 12 12 ++ w.extractLsb' 0 8 = 0#20) :
    fieldA w = 0#4 ∧ immS16 w = 0#16 := by
  obtain ⟨hhigh, hlow⟩ := (append_eq_zero_iff _ _).mp hr
  constructor
  · rw [fieldA, ← extract_extract w (s := 12) (l := 12) (s' := 8) (by decide), hhigh]
    rfl
  · rw [immS16, ← extract_extract w (s := 12) (l := 12) (s' := 0) (by decide), hhigh, hlow]
    rfl

end

end Sys2Proof.Proofs
end

section
/-! Decoding and encoding undo each other (30_encoding.md R73, R74, R78). -/

namespace Sys2Proof.Proofs

open Sys2Proof Sys2Proof.Machine

/-- R78: `l.j` is every word with the opcode 0 but the all-zero one. -/
theorem lJ_wf_iff (x : BitVec 26) : (Instr.lJ x).wf = true ↔ (0#6 ++ x : Word) ≠ 0 := by
  have hzero : (0#6 ++ x : Word) = 0 ↔ 0#6 = 0#6 ∧ x = 0#26 := append_eq_zero_iff 0#6 x
  rw [Ne, hzero]
  simp [Instr.wf]

theorem decode_encode_lJ {x : BitVec 26} (hwf : (Instr.lJ x).wf = true) :
    decode (encode (.lJ x)) = .ok (.lJ x) := by
  obtain ⟨hop, hx⟩ := fields_encLX 0#6 x
  show decodeWord (0#6 ++ x) = _
  rw [decodeWord, hop, hx]
  exact if_neg ((lJ_wf_iff x).mp hwf)

/-- Settles O1: format by format, the encoded word's fields (`fields_enc…`) select the row and give the operands. -/
theorem decodeOfEncodeIsTheInstruction : Obligations.DecodeOfEncodeIsTheInstruction := by
  intro i hwf
  cases i with
  | lIllegal => rfl
  | lJ x => exact decode_encode_lJ hwf
  | lJal x | lBnf x | lBf x => simp only [encode, encLX, decode, decodeWord, fields_encLX _ x]; rfl
  | lLoad32u a b j | lLoad16u a b j | lLoad16s a b j | lLoad8u a b j | lLoad8s a b j | lStor32 a b j | lStor16 a b j
  | lStor8 a b j => simp only [encode, encLLS, decode, decodeWord, fields_encLLS _ a b j]; rfl
  | lAddi32s a b imm | lSubi32s a b imm =>
    simp only [encode, encLI18, decode, decodeWord, fields_encLI18 _ a b imm]; rfl
  | lMuli32s a b imm | lXori16 a b imm =>
    simp only [encode, encLI16, decode, decodeWord, fields_encLI16 _ a b imm]; rfl
  | lImmlo16u a imm | lImmhi16u a imm =>
    simp only [encode, encLI16, decode, decodeWord, fields_encLI16 _ a 0 imm]; rfl
  | lSub32s a b c | lAnd32 a b c | lOr32 a b c | lXor32 a b c | lMul32s a b c | lMul32u a b c | lDiv32s a b c
  | lDiv32u a b c => simp only [encode, encLR, decode, decodeWord, decodeAlu, fields_encLR _ a b c]; rfl
  | lShla32 a b c l | lShra32 a b c l | lShrl32 a b c l =>
    simp only [encode, encLRL, decode, decodeWord, decodeAlu, fields_encLRL _ a b c l]; rfl
  | lDcbf a j | lDcbt a j | lDcbi a j | lMtsr j a | lMfsr a j =>
    simp only [encode, encLS, decode, decodeWord, decodeSystem, fields_encLS _ a j]; rfl
  | lDcia | lDcfa | lTlbia => rfl
  | hSfeq32 a b | hSfne32 a b | hSfgt32s a b | hSfge32s a b | hSflt32s a b | hSfle32s a b | hSfgt32u a b | hSfge32u a b
  | hSflt32u a b | hSfle32u a b | hMov32 a b =>
    simp only [encode, encHRR, decode, decodeHalf, decodeCompare, fields_encHRR _ a b]; rfl
  | hExt16s a | hExt16z a | hExt8s a | hExt8z a | hJalr a =>
    simp only [encode, encHR1, decode, decodeHalf, decodeCompare, decodeSingle, fields_encHR1 _ a]; rfl
  | hNop => rfl
  | hLoad32u a b n | hStor32 a b n | hAdd32s a b n =>
    simp only [encode, encHNRR, decode, decodeHalf, fields_encHNRR _ n a b]; rfl
  | hImmch32s a m => simp only [encode, encHNRR, decode, decodeHalf, fields_encHM _ a m]; rfl
  | hJal9 x | hJalA x | hBnf x | hBf x | hSched x =>
    simp only [encode, encHX, decode, decodeHalf, fields_encHX _ x]; rfl

theorem decode_of_encode_eq {c : Code} {i : Instr} (henc : encode i = c) (hwf : i.wf = true) : decode c = .ok i :=
  henc ▸ decodeOfEncodeIsTheInstruction i hwf

/-- Settles O5: each word is the encoding of its instruction, so it decodes to it. -/
theorem writtenOutWordsDecode : Obligations.WrittenOutWordsDecode :=
  ⟨decode_of_encode_eq rfl rfl, decode_of_encode_eq rfl rfl, decode_of_encode_eq rfl rfl, decode_of_encode_eq rfl rfl,
    decode_of_encode_eq rfl rfl, decode_of_encode_eq rfl rfl, decode_of_encode_eq rfl rfl, decode_of_encode_eq rfl rfl,
    decode_of_encode_eq rfl rfl, decode_of_encode_eq rfl rfl⟩

/-! ### From a word to its instruction and back, decoder by decoder -/

section
variable {w : Word} {h : Half} {i : Instr}

/-- The fields that select the row and the reserved field, now known, are those the encoder writes. -/
theorem encode_of_decodeAlu (hw : w.extractLsb' 24 8 = 0x2C#8) (hdec : decodeAlu w = .ok i) :
    encode i = .word w ∧ i.wf = true := by
  unfold decodeAlu at hdec
  split at hdec
  case h_12 => cases hdec
  case h_2 hop | h_3 hop | h_4 hop =>
    obtain ⟨hr, rfl⟩ := ifZero_eq_ok.mp hdec
    exact ⟨encLRL_fields hw hop hr, rfl⟩
  all_goals
    next hop =>
    obtain ⟨hr, rfl⟩ := ifZero_eq_ok.mp hdec
    exact ⟨encLR_fields hw hop hr, rfl⟩

theorem encode_of_decodeSystem (hw : w.extractLsb' 24 8 = 0x30#8) (hdec : decodeSystem w = .ok i) :
    encode i = .word w ∧ i.wf = true := by
  unfold decodeSystem at hdec
  split at hdec
  case h_9 => cases hdec
  case h_4 hop | h_5 hop | h_6 hop =>
    obtain ⟨hr, rfl⟩ := ifZero_eq_ok.mp hdec
    obtain ⟨hA, hS⟩ := systemReserved_fields hr
    have henc := encLS_fields hw hop
    rw [hA, hS] at henc
    exact ⟨henc, rfl⟩
  all_goals
    next hop =>
    cases hdec
    exact ⟨encLS_fields hw hop, rfl⟩

theorem encode_hNop (hh : h.extractLsb' 8 8 = 0x4B#8) (hr : h.extractLsb' 3 5 = 0#5)
    (hop : h.extractLsb' 0 3 = 4#3) : encode .hNop = .half h := by
  have hjoin : h.extractLsb' 8 8 ++ h.extractLsb' 3 5 ++ h.extractLsb' 0 3 = h := by
    rw [extract_join h 3 8 5, extract_join h 0 13 3]
    exact extract_all h
  rw [hh, hr, hop] at hjoin
  exact congrArg Code.half hjoin

theorem encode_of_decodeSingle (hh : h.extractLsb' 8 8 = 0x4B#8) (hdec : decodeSingle h = .ok i) :
    encode i = .half h ∧ i.wf = true := by
  unfold decodeSingle at hdec
  split at hdec
  case h_7 => cases hdec
  case h_5 hop =>
    obtain ⟨hr, rfl⟩ := ifZero_eq_ok.mp hdec
    exact ⟨encode_hNop hh hr hop, rfl⟩
  all_goals
    next hop =>
    obtain ⟨hr, rfl⟩ := ifZero_eq_ok.mp hdec
    exact ⟨encHR1_fields hh hr hop, rfl⟩

theorem encode_of_decodeCompare (hh : h.extractLsb' 12 4 = 4#4) (hdec : decodeCompare h = .ok i) :
    encode i = .half h ∧ i.wf = true := by
  unfold decodeCompare at hdec
  split at hdec
  case h_12 hop => exact encode_of_decodeSingle (half_firstByte_eq hh hop) hdec
  case h_13 => cases hdec
  all_goals
    next hop =>
    cases hdec
    exact ⟨encHRR_fields (half_firstByte_eq hh hop), rfl⟩

theorem encode_of_decodeHalf (hdec : decodeHalf h = .ok i) : encode i = .half h ∧ i.wf = true := by
  unfold decodeHalf at hdec
  split at hdec
  case h_1 hop => exact encode_of_decodeCompare hop hdec
  case h_2 hop | h_3 hop | h_4 hop => cases hdec; exact ⟨encHNRR_fields hop, rfl⟩
  case h_5 hop => cases hdec; exact ⟨encHM_fields hop, rfl⟩
  case h_6 hop | h_7 hop | h_8 hop | h_9 hop | h_10 hop => cases hdec; exact ⟨encHX_fields hop, rfl⟩
  case h_11 => cases hdec

theorem eq_three_of_ne {g : BitVec 2} (h0 : g ≠ 0#2) (h1 : g ≠ 1#2) (h2 : g ≠ 2#2) : g = 3#2 := by
  bv_omega

theorem encode_of_decodeWord (hdec : decodeWord w = .ok i) : encode i = .word w ∧ i.wf = true := by
  unfold decodeWord at hdec
  split at hdec
  case h_1 hop =>
    split at hdec <;> cases hdec
    next hw => exact ⟨congrArg Code.word hw.symm, rfl⟩
    next hw =>
      have hjoin : 0#6 ++ immX26 w = w := hop ▸ join_encLX w
      exact ⟨encLX_fields hop, (lJ_wf_iff _).mpr (hjoin.symm ▸ hw)⟩
  case h_2 hop | h_3 hop | h_4 hop => cases hdec; exact ⟨encLX_fields hop, rfl⟩
  case h_5 hop | h_6 hop | h_7 hop | h_8 hop =>
    split at hdec <;> cases hdec
    next hg => exact ⟨encLLS_fields (opcode7_eq hop hg), rfl⟩
    next hg => exact ⟨encLLS_fields (opcode7_eq hop ((BitVec.eq_zero_or_eq_one _).resolve_left hg)), rfl⟩
  case h_9 hop | h_10 hop => cases hdec; exact ⟨encLI18_fields hop, rfl⟩
  case h_11 hop =>
    split at hdec
    case h_1 hg | h_2 hg => cases hdec; exact ⟨encLI16_fields (firstByte_eq hop hg), rfl⟩
    case h_3 hg =>
      obtain ⟨hr, rfl⟩ := ifZero_eq_ok.mp hdec
      exact ⟨encLI16_fields_of_B_zero (firstByte_eq hop hg) hr, rfl⟩
    case h_4 h0 h1 h2 =>
      obtain ⟨hr, rfl⟩ := ifZero_eq_ok.mp hdec
      exact ⟨encLI16_fields_of_B_zero (firstByte_eq hop (eq_three_of_ne h0 h1 h2)) hr, rfl⟩
  case h_12 hop =>
    split at hdec
    case h_1 hg => exact encode_of_decodeAlu (firstByte_eq hop hg) hdec
    case h_2 => cases hdec
  case h_13 hop =>
    split at hdec
    case h_1 hg => exact encode_of_decodeSystem (firstByte_eq hop hg) hdec
    case h_2 => cases hdec
  case h_14 => cases hdec

end

/-- Settles O2: `encode_of_decodeHalf` and `encode_of_decodeWord`. -/
theorem encodeOfDecodeIsTheWord : Obligations.EncodeOfDecodeIsTheWord := by
  intro c i hdec
  cases c with
  | half h => exact encode_of_decodeHalf hdec
  | word w => exact encode_of_decodeWord hdec

end Sys2Proof.Proofs
end

section
/-! Where the decoder refuses (30_encoding.md R80, R81): each decoder's answers by the value that selects them. -/

namespace Sys2Proof.Proofs

open Sys2Proof Sys2Proof.Machine

/-- What the register-register group (R75) answers, by the minor opcode. -/
inductive AluRow (w : Word) : Nat → Except DecodeError Instr → Prop where
  | full {n : Nat} (hn : n = 0 ∨ 4 ≤ n ∧ n ≤ 10) (i : Instr) : AluRow w n (ifZero (w.extractLsb' 0 8).toNat i)
  | shift {n : Nat} (hn : 1 ≤ n ∧ n ≤ 3) (i : Instr) : AluRow w n (ifZero (w.extractLsb' 0 3).toNat i)
  | free {n : Nat} (hn : 11 ≤ n) : AluRow w n (.error .unassigned)

theorem decodeAlu_row (w : Word) : AluRow w (minor w).toNat (decodeAlu w) := by
  unfold decodeAlu
  split
  case h_2 hop | h_3 hop | h_4 hop => exact .shift (by rw [hop]; decide) _
  case h_12 => exact .free (by simp only [imp_false] at *; bv_omega)
  all_goals next hop => exact .full (by rw [hop]; decide) _

/-- What the system group (R76) answers, by the minor opcode. -/
inductive SystemRow (w : Word) : Nat → Except DecodeError Instr → Prop where
  | operands {n : Nat} (hn : n ≤ 2 ∨ n = 6 ∨ n = 7) (i : Instr) : SystemRow w n (.ok i)
  | reserved {n : Nat} (hn : 3 ≤ n ∧ n ≤ 5) (i : Instr) :
    SystemRow w n (ifZero (w.extractLsb' 12 12 ++ w.extractLsb' 0 8).toNat i)
  | free {n : Nat} (hn : 8 ≤ n) : SystemRow w n (.error .unassigned)

theorem decodeSystem_row (w : Word) : SystemRow w (minor w).toNat (decodeSystem w) := by
  unfold decodeSystem
  split
  case h_4 hop | h_5 hop | h_6 hop => exact .reserved (by rw [hop]; decide) _
  case h_9 => exact .free (by simp only [imp_false] at *; bv_omega)
  all_goals next hop => exact .operands (by rw [hop]; decide) _

/-- What a 32-bit word decodes to (R74), by its first byte. -/
inductive WordRow (w : Word) : Nat → Except DecodeError Instr → Prop where
  | plain {n : Nat} (hn : n < 0x2A) (i : Instr) : WordRow w n (.ok i)
  | halfWord {n : Nat} (hn : n = 0x2A ∨ n = 0x2B) (i : Instr) : WordRow w n (ifZero (w.extractLsb' 16 4).toNat i)
  | alu : WordRow w 0x2C (decodeAlu w)
  | system : WordRow w 0x30 (decodeSystem w)
  | free {n : Nat} (hn : 0x2D ≤ n ∧ n ≤ 0x2F ∨ 0x31 ≤ n) : WordRow w n (.error .unassigned)

theorem firstByte_toNat (w : Word) :
    (w.extractLsb' 24 8).toNat = 4 * (op6 w).toNat + (w.extractLsb' 24 2).toNat := by
  simp only [op6, BitVec.extractLsb'_toNat, Nat.shiftRight_eq_div_pow]
  omega

theorem half_firstByte_toNat (h : Half) :
    (h.extractLsb' 8 8).toNat = 16 * (h.extractLsb' 12 4).toNat + (h.extractLsb' 8 4).toNat := by
  simp only [BitVec.extractLsb'_toNat, Nat.shiftRight_eq_div_pow]
  omega

theorem decodeWord_row (w : Word) : WordRow w (w.extractLsb' 24 8).toNat (decodeWord w) := by
  rw [firstByte_toNat]
  have hlt : (w.extractLsb' 24 2).toNat < 4 := (w.extractLsb' 24 2).isLt
  unfold decodeWord
  split
  case h_1 hop | h_5 hop | h_6 hop | h_7 hop | h_8 hop =>
    rw [hop, BitVec.toNat_ofNat]
    split <;> exact .plain (by omega) _
  case h_2 hop | h_3 hop | h_4 hop | h_9 hop | h_10 hop => exact .plain (by rw [hop, BitVec.toNat_ofNat]; omega) _
  case h_11 hop =>
    rw [hop]
    split
    case h_1 hg | h_2 hg => exact .plain (by rw [hg]; decide) _
    case h_3 hg => exact .halfWord (by rw [hg]; decide) _
    case h_4 h0 h1 h2 => exact .halfWord (by simp only [imp_false] at *; bv_omega) _
  case h_12 hop =>
    rw [hop]
    split
    case h_1 hg => rw [hg]; exact .alu
    case h_2 hg => exact .free (by simp only [imp_false] at *; bv_omega)
  case h_13 hop =>
    rw [hop]
    split
    case h_1 hg => rw [hg]; exact .system
    case h_2 hg => exact .free (by simp only [imp_false] at *; bv_omega)
  case h_14 => exact .free (by simp only [imp_false] at *; bv_omega)

/-- What the single-register group (R77) answers, by its opcode. -/
inductive SingleRow (h : Half) : Nat → Except DecodeError Instr → Prop where
  | register {n : Nat} (hn : n ≤ 3 ∨ n = 5) (i : Instr) : SingleRow h n (ifZero (h.extractLsb' 3 1).toNat i)
  | nop : SingleRow h 4 (ifZero (h.extractLsb' 3 5).toNat .hNop)
  | free {n : Nat} (hn : 6 ≤ n) : SingleRow h n (.error .unassigned)

theorem decodeSingle_row (h : Half) : SingleRow h (h.extractLsb' 0 3).toNat (decodeSingle h) := by
  unfold decodeSingle
  split
  case h_5 hop => rw [hop]; exact .nop
  case h_7 => exact .free (by simp only [imp_false] at *; bv_omega)
  all_goals next hop => exact .register (by rw [hop]; decide) _

/-- What a 16-bit word decodes to (R74), by its first byte. -/
inductive HalfRow (h : Half) : Nat → Except DecodeError Instr → Prop where
  | plain {n : Nat} (hn : 0x40 ≤ n ∧ n ≤ 0x4A ∨ 0x50 ≤ n ∧ n ≤ 0xCF ∨ 0xF0 ≤ n) (i : Instr) :
    HalfRow h n (.ok i)
  | single : HalfRow h 0x4B (decodeSingle h)
  | free {n : Nat} (hn : n ≤ 0x3F ∨ 0x4C ≤ n ∧ n ≤ 0x4F ∨ 0xD0 ≤ n ∧ n ≤ 0xEF) :
    HalfRow h n (.error .unassigned)

theorem decodeCompare_row {h : Half} (hop : h.extractLsb' 12 4 = 4#4) :
    HalfRow h (h.extractLsb' 8 8).toNat (decodeCompare h) := by
  rw [half_firstByte_toNat, hop]
  unfold decodeCompare
  split
  case h_12 hg => rw [hg]; exact .single
  case h_13 => exact .free (by simp only [imp_false] at *; bv_omega)
  all_goals next hg => exact .plain (by rw [hg]; decide) _

theorem decodeHalf_row (h : Half) : HalfRow h (h.extractLsb' 8 8).toNat (decodeHalf h) := by
  have hlt : (h.extractLsb' 8 4).toNat < 16 := (h.extractLsb' 8 4).isLt
  have hbyte := half_firstByte_toNat h
  unfold decodeHalf
  split
  case h_1 hop => exact decodeCompare_row hop
  case h_11 => exact .free (by simp only [imp_false] at *; bv_omega)
  all_goals
    next hop =>
    rw [hop, BitVec.toNat_ofNat] at hbyte
    exact .plain (by omega) _

/-! ### Unassigned encodings (R80) -/

theorem decodeAlu_eq_unassigned {w : Word} : decodeAlu w = .error .unassigned ↔ 0xB ≤ (minor w).toNat := by
  have hrow := decodeAlu_row w
  generalize decodeAlu w = r, (minor w).toNat = n at hrow ⊢
  cases hrow with
  | full hn i => exact iff_of_false ifZero_ne_unassigned (by omega)
  | shift hn i => exact iff_of_false ifZero_ne_unassigned (by omega)
  | free hn => exact iff_of_true rfl hn

theorem decodeSystem_eq_unassigned {w : Word} : decodeSystem w = .error .unassigned ↔ 8 ≤ (minor w).toNat := by
  have hrow := decodeSystem_row w
  generalize decodeSystem w = r, (minor w).toNat = n at hrow ⊢
  cases hrow with
  | operands hn i => exact iff_of_false nofun (by omega)
  | reserved hn i => exact iff_of_false ifZero_ne_unassigned (by omega)
  | free hn => exact iff_of_true rfl hn

theorem decodeSingle_eq_unassigned {h : Half} :
    decodeSingle h = .error .unassigned ↔ 6 ≤ (h.extractLsb' 0 3).toNat := by
  have hrow := decodeSingle_row h
  generalize decodeSingle h = r, (h.extractLsb' 0 3).toNat = n at hrow ⊢
  cases hrow with
  | register hn i => exact iff_of_false ifZero_ne_unassigned (by omega)
  | nop => exact iff_of_false ifZero_ne_unassigned (by omega)
  | free hn => exact iff_of_true rfl hn

theorem firstByte_lt_of_long {w : Word} (hlong : w.extractLsb' 30 2 = 0) : (w.extractLsb' 24 8).toNat < 0x40 := by
  have htop : (w.extractLsb' 30 2).toNat = 0 := by rw [hlong]; rfl
  simp only [BitVec.extractLsb'_toNat, Nat.shiftRight_eq_div_pow] at htop ⊢
  omega

theorem half_firstByte_ge_of_short {h : Half} (hshort : h.extractLsb' 14 2 ≠ 0) :
    0x40 ≤ (h.extractLsb' 8 8).toNat := by
  have htop : (h.extractLsb' 14 2).toNat ≠ 0 := BitVec.toNat_ne.mp hshort
  simp only [BitVec.extractLsb'_toNat, Nat.shiftRight_eq_div_pow] at htop ⊢
  omega

/-- Settles O3: by the first byte's row, and in a group by the opcode that selects within it. -/
theorem unassignedEncodingsAreThoseOfTheMap : Obligations.UnassignedEncodingsAreThoseOfTheMap := by
  constructor
  · intro w hlong
    have hlt := firstByte_lt_of_long hlong
    have hrow := decodeWord_row w
    simp only [decode]
    generalize decodeWord w = r, (w.extractLsb' 24 8).toNat = n at hrow hlt ⊢
    cases hrow with
    | plain hn i => exact iff_of_false nofun (by omega)
    | halfWord hn i => exact iff_of_false ifZero_ne_unassigned (by omega)
    | alu => rw [decodeAlu_eq_unassigned, minor]; omega
    | system => rw [decodeSystem_eq_unassigned, minor]; omega
    | free hn => exact iff_of_true rfl (by omega)
  · intro h hshort
    have hge := half_firstByte_ge_of_short hshort
    have hrow := decodeHalf_row h
    simp only [decode]
    generalize decodeHalf h = r, (h.extractLsb' 8 8).toNat = n at hrow hge ⊢
    cases hrow with
    | plain hn i => exact iff_of_false nofun (by omega)
    | single => rw [decodeSingle_eq_unassigned]; omega
    | free hn => exact iff_of_true rfl (by omega)

/-! ### Reserved fields (R81) -/

theorem decodeAlu_eq_reserved {w : Word} : decodeAlu w = .error .reservedField ↔
    (w.extractLsb' 0 8 ≠ 0 ∧ ((minor w).toNat = 0 ∨ 4 ≤ (minor w).toNat ∧ (minor w).toNat ≤ 10)) ∨
      (w.extractLsb' 0 3 ≠ 0 ∧ 1 ≤ (minor w).toNat ∧ (minor w).toNat ≤ 3) := by
  have hrow := decodeAlu_row w
  generalize decodeAlu w = r, (minor w).toNat = n at hrow ⊢
  cases hrow with
  | full hn i =>
    have hnot : ¬(1 ≤ n ∧ n ≤ 3) := by omega
    simp only [ifZero_eq_reserved, hn, hnot, and_true, and_false, or_false]
    rfl
  | shift hn i =>
    have hnot : ¬(n = 0 ∨ 4 ≤ n ∧ n ≤ 10) := by omega
    simp only [ifZero_eq_reserved, hn, hnot, and_true, and_false, false_or]
    rfl
  | free hn => exact iff_of_false nofun (by omega)

theorem decodeSystem_eq_reserved {w : Word} : decodeSystem w = .error .reservedField ↔
    (w.extractLsb' 12 12 ≠ 0 ∨ w.extractLsb' 0 8 ≠ 0) ∧ 3 ≤ (minor w).toNat ∧ (minor w).toNat ≤ 5 := by
  have hrow := decodeSystem_row w
  generalize decodeSystem w = r, (minor w).toNat = n at hrow ⊢
  cases hrow with
  | operands hn i => exact iff_of_false nofun (by omega)
  | reserved hn i =>
    rw [ifZero_eq_reserved, Ne, append_eq_zero_iff, not_and_or, and_iff_left hn]
    rfl
  | free hn => exact iff_of_false nofun (by omega)

theorem decodeSingle_eq_reserved {h : Half} : decodeSingle h = .error .reservedField ↔
    (h.extractLsb' 3 1 ≠ 0 ∧ ((h.extractLsb' 0 3).toNat ≤ 3 ∨ (h.extractLsb' 0 3).toNat = 5)) ∨
      (h.extractLsb' 3 5 ≠ 0 ∧ (h.extractLsb' 0 3).toNat = 4) := by
  have hrow := decodeSingle_row h
  generalize decodeSingle h = r, (h.extractLsb' 0 3).toNat = n at hrow ⊢
  cases hrow with
  | register hn i =>
    have hnot : n ≠ 4 := by omega
    simp only [ifZero_eq_reserved, hn, hnot, and_true, and_false, or_false]
    rfl
  | nop => rw [ifZero_eq_reserved]; simp
  | free hn => exact iff_of_false nofun (by omega)

/-- Settles O4: by the first byte's row, and in a group by its own reserved fields. -/
theorem reservedFieldsAreThoseOfTheFigures : Obligations.ReservedFieldsAreThoseOfTheFigures := by
  constructor
  · intro w
    have hrow := decodeWord_row w
    simp only [decode]
    generalize decodeWord w = r, (w.extractLsb' 24 8).toNat = n at hrow ⊢
    cases hrow with
    | plain hn i => exact iff_of_false nofun (by omega)
    | halfWord hn i =>
      have hnot : n ≠ 0x2C ∧ n ≠ 0x30 := by omega
      simp only [ifZero_eq_reserved, hn, hnot, true_and, false_and, or_false]
      rfl
    | alu => rw [decodeAlu_eq_reserved]; simp [minor]
    | system => rw [decodeSystem_eq_reserved]; simp [minor]
    | free hn => exact iff_of_false nofun (by omega)
  · intro h
    have hrow := decodeHalf_row h
    simp only [decode]
    generalize decodeHalf h = r, (h.extractLsb' 8 8).toNat = n at hrow ⊢
    cases hrow with
    | plain hn i => exact iff_of_false nofun (by omega)
    | single => rw [decodeSingle_eq_reserved, and_iff_right rfl]
    | free hn => exact iff_of_false nofun (by omega)

end Sys2Proof.Proofs
end

section
/-! The switched-off classes (00_scope.md R2, 30_encoding.md R80). -/

namespace Sys2Proof.Proofs

open Sys2Proof Sys2Proof.Machine

theorem needClass2_of_off {insn : Code} {s : State} (hoff : s.params.implClass2 = false) (r : Result) :
    needClass2 insn s r = raiseIllegalInstruction insn s :=
  if_neg (Bool.eq_false_iff.mp hoff)

theorem needClass3_of_off {insn : Code} {s : State} (hoff : s.params.implClass3 = false) (r : Result) :
    needClass3 insn s r = raiseIllegalInstruction insn s :=
  if_neg (Bool.eq_false_iff.mp hoff)

/-- R2's Class 2: the class test comes first (R227 item 8). -/
theorem exec_of_class2 {i : Instr} (hi : insnClass i = 2) (s : State) :
    ∃ r, exec i s = needClass2 (encode i) s r := by
  cases i with
  | lMuli32s a b imm => exact ⟨_, rfl⟩
  | lMul32s a b c | lMul32u a b c => exact ⟨_, rfl⟩
  | hMov32 a b => exact ⟨_, rfl⟩
  | hExt16s a | hExt16z a | hExt8s a | hExt8z a => exact ⟨_, rfl⟩
  | hLoad32u a b n | hStor32 a b n => exact ⟨_, rfl⟩
  | hImmch32s a m => exact ⟨_, rfl⟩
  | hJal9 x | hJalA x | hBnf x | hBf x => exact ⟨_, rfl⟩
  | _ => cases hi

/-- R2's Class 3: the class test comes first (R227 item 8). -/
theorem exec_of_class3 {i : Instr} (hi : insnClass i = 3) (s : State) :
    ∃ r, exec i s = needClass3 (encode i) s r := by
  cases i with
  | lXori16 a b imm => exact ⟨_, rfl⟩
  | lDiv32s a b c | lDiv32u a b c => exact ⟨_, rfl⟩
  | hSched z => exact ⟨_, rfl⟩
  | _ => cases hi

/-- Settles O55: the class test is the outermost one, and switched off it raises. -/
theorem switchedOffClassesRaise : Obligations.SwitchedOffClassesRaise := by
  rintro i s (⟨hclass, hoff⟩ | ⟨hclass, hoff⟩)
  · obtain ⟨r, hexec⟩ := exec_of_class2 hclass s
    rw [hexec, needClass2_of_off hoff, raiseIllegalInstruction]
  · obtain ⟨r, hexec⟩ := exec_of_class3 hclass s
    rw [hexec, needClass3_of_off hoff, raiseIllegalInstruction]

end Sys2Proof.Proofs
end

section
/-! 32-bit control transfers (40_l_control.md R100 to R105): each is `delayed` or `jumpAndLink` at D = pc + 4. -/

namespace Sys2Proof.Proofs

open Sys2Proof Sys2Proof.Machine

/-- R100: from an even pc the target `D + sext_32(X ++ 0b00)` is even, so `delayed` does not refuse it. -/
theorem targetL_even {s : State} (hpc : s.pc.getLsbD 0 = false) (x : BitVec 26) : (targetL s x).getLsbD 0 = false :=
  target_even (pc_add_len_even hpc (.word 0)) x

/-- A branch with an even target opens its slot whether its condition holds or not (R30). -/
theorem slotResult_branch {s : State} (hnone : s.dslot = none) {taken : Bool} {cond : Prop} [Decidable cond]
    (hcond : taken = true ↔ cond) {target : Word} (heven : target.getLsbD 0 = false) (d : Word) :
    SlotResult s ⟨if cond then some target else none, d + 4⟩ (delayed taken target d s) := by
  rw [← if_congr hcond rfl rfl]
  exact slotResult_delayed hnone d fun _ => heven

/-- Settles O25: the all-zero word is what l.illegal encodes to, and raising is its whole rule. -/
theorem illegalAlwaysRaises : Obligations.IllegalAlwaysRaises :=
  ⟨decode_of_encode_eq rfl rfl, fun _ => rfl⟩

/-- Settles O26: l.j is `delayed`, always taken, on the unchanged state. -/
theorem jumpOpensSlotAtTarget : Obligations.JumpOpensSlotAtTarget := by
  refine fun s x => ⟨rfl, fun hnone hpc => ?opens, fun hslot => ?inSlot⟩
  case opens => exact slotResult_delayed hnone (slotAddrL s) fun _ => targetL_even hpc x
  case inSlot =>
    obtain ⟨d, hd⟩ := Option.ne_none_iff_exists'.mp hslot
    exact delayed_in_slot hd _ _ _

/-- Settles O27: l.jal is `jumpAndLink`, whose link value is D + 4. -/
theorem jumpAndLinkWritesReturnAddress : Obligations.JumpAndLinkWritesReturnAddress := by
  refine fun s x => ⟨rfl, fun hnone hpc => ?links, fun hslot => ?inSlot⟩
  case links => exact linkResult_jumpAndLink hnone (slotAddrL s) (targetL_even hpc x)
  case inSlot =>
    obtain ⟨d, hd⟩ := Option.ne_none_iff_exists'.mp hslot
    exact jumpAndLink_in_slot hd _ _

/-- Settles O28: the two branches differ only in the condition they read off the flag. -/
theorem branchesReadTheFlag : Obligations.BranchesReadTheFlag := by
  intro s x hnone hpc
  have heven : (targetL s x).getLsbD 0 = false := targetL_even hpc x
  have hclear : (!s.flag) = true ↔ s.flag = false := by simp
  exact ⟨slotResult_branch hnone hclear heven (slotAddrL s), slotResult_branch hnone Iff.rfl heven (slotAddrL s)⟩

end Sys2Proof.Proofs
end

section
/-! 32-bit loads and stores (41_l_loadstore.md R110 to R118): a load is `loadInto` of what `memRead8`, `memRead16` or
`memRead32` answers at x[B] + sext_32(J), a store is `memWrite` of the low-order bytes of x[B] at x[A] + sext_32(J). -/

namespace Sys2Proof.Proofs

open Sys2Proof Sys2Proof.Machine

/-- The two bytes of the low-order half word, as l.stor16 lays them out (R45, R117). -/
theorem bytes16_low (v : Word) : bytes16 (v.extractLsb' 0 16) = [v.extractLsb' 8 8, v.extractLsb' 0 8] := by
  have hhigh : (v.extractLsb' 0 16).extractLsb' 8 8 = v.extractLsb' 8 8 := extract_extract v (by decide)
  have hlow : (v.extractLsb' 0 16).extractLsb' 0 8 = v.extractLsb' 0 8 := extract_extract v (by decide)
  rw [bytes16, hhigh, hlow]

/-- Settles O32: the datum is what the readable bytes are put together to (`memRead32_of_readable` and its two
companions), widened as the instruction says, and `regResult_loadInto` is the write with its frame. -/
theorem loadsExtendTheDatum : Obligations.LoadsExtendTheDatum := by
  intro s a b j b0 b1 b2 b3
  refine ⟨?encodings, fun hread => ?word, fun hread => ?half, fun hread => ?byte⟩
  case encodings => exact ⟨rfl, rfl, rfl, rfl, rfl⟩
  case word => exact regResult_loadInto a (memRead32_of_readable hread)
  case half =>
    have hdatum : memRead16 s (effAddr s b j) = .ok (b0 ++ b1) := memRead16_of_readable hread
    exact ⟨regResult_loadInto a (congrArg (Except.map zext) hdatum),
      regResult_loadInto a (congrArg (Except.map sext) hdatum)⟩
  case byte =>
    have hdatum : memRead8 s (effAddr s b j) = .ok b0 := memRead8_of_readable hread
    exact ⟨regResult_loadInto a (congrArg (Except.map zext) hdatum),
      regResult_loadInto a (congrArg (Except.map sext) hdatum)⟩

/-- Settles O34: `storeResult_memWrite` is the store with its frame; the low-order half word's bytes are the word's own
(`bytes16_low`). -/
theorem storesWriteLowOrderBytes : Obligations.StoresWriteLowOrderBytes := by
  intro s a b j
  refine ⟨?encodings, fun hw => ?word, fun hw => ?half, fun hw => ?byte⟩
  case encodings => exact ⟨rfl, rfl, rfl⟩
  case word => exact storeResult_memWrite (bs := bytes32 (s.readReg b)) hw (by simp [bytes32])
  case half =>
    rw [← bytes16_low]
    exact storeResult_memWrite (bs := bytes16 ((s.readReg b).extractLsb' 0 16)) hw (by simp [bytes16])
  case byte => exact storeResult_memWrite (bs := bytes8 ((s.readReg b).extractLsb' 0 8)) hw (by simp [bytes8])

end Sys2Proof.Proofs
end

section
/-! 32-bit immediates (42_l_immediate.md R120 to R126): each completes with `writeResult` and nothing else, l.muli32s and
l.xori16 behind their class test. -/

namespace Sys2Proof.Proofs

open Sys2Proof Sys2Proof.Machine

/-- Settles O38: `regResult_writeResult` is the write with its frame. -/
theorem addAndSubtractImmediate : Obligations.AddAndSubtractImmediate := by
  refine fun s a b imm => ⟨rfl, rfl, ?add, ?sub⟩
  case add => exact regResult_writeResult s a (s.readReg b + sext imm)
  case sub => exact regResult_writeResult s a (s.readReg b - sext imm)

/-! ### The product with a widened immediate (R123) -/

theorem toInt_sext {n : Nat} (hn : n ≤ 32) (v : BitVec n) : (sext v).toInt = v.toInt :=
  BitVec.toInt_signExtend_of_le hn

/-- A value narrower than a word has a clear sign bit when it is zero-extended. -/
theorem toInt_zext {n : Nat} (hn : n < 32) (v : BitVec n) : (zext v).toInt = v.toNat := by
  have hnat : (zext v).toNat = v.toNat := BitVec.toNat_setWidth_of_le hn.le
  have hsmall : 2 * v.toNat < 2 ^ 32 := by
    calc 2 * v.toNat < 2 * 2 ^ n := by have := v.isLt; omega
      _ = 2 ^ (n + 1) := (Nat.pow_succ' ..).symm
      _ ≤ 2 ^ 32 := Nat.pow_le_pow_right (by decide) hn
  rw [BitVec.toInt_eq_toNat_of_lt (by rwa [hnat]), hnat]

/-- With Class 2 implemented, l.muli32s is the write of the low word of the product. -/
theorem regResult_lMuli32s {s : State} (hon : s.params.implClass2 = true) {e : ImmExt}
    (hext : s.params.muliExt = e) (a b : RegNo) (imm : BitVec 16) :
    RegResult s a (BitVec.ofInt 32 ((s.readReg b).toInt * (extImm e imm).toInt)) (exec (.lMuli32s a b imm) s) := by
  have hexec : exec (.lMuli32s a b imm) s =
      writeResult s a (mulSigned (s.readReg b) (extImm s.params.muliExt imm)) := needClass2_of_on hon _
  rw [hexec, hext]
  exact regResult_writeResult s a _

/-- Settles O39: the widened immediate read as signed is the immediate read as signed (`toInt_sext`) or as unsigned
(`toInt_zext`). -/
theorem multiplyImmediateTruncates : Obligations.MultiplyImmediateTruncates := by
  refine fun s a b imm => ⟨rfl, fun hon hext => ?sign, fun hon hext => ?zero, fun hoff => ?off⟩
  case sign =>
    rw [← toInt_sext (by decide) imm]
    exact regResult_lMuli32s hon hext a b imm
  case zero =>
    rw [← toInt_zext (by decide) imm]
    exact regResult_lMuli32s hon hext a b imm
  case off => exact switchedOffClassesRaise (.lMuli32s a b imm) s (.inl ⟨rfl, hoff⟩)

/-! ### Exclusive or with a widened immediate (R124) -/

/-- An implemented Class 3 instruction does what its own rule says (R227 item 8). -/
theorem needClass3_of_on {insn : Code} {s : State} (hon : s.params.implClass3 = true) (r : Result) :
    needClass3 insn s r = r :=
  if_pos hon

/-- With Class 3 implemented, l.xori16 is the write of the exclusive or. -/
theorem regResult_lXori16 {s : State} (hon : s.params.implClass3 = true) {e : ImmExt}
    (hext : s.params.xori16Ext = e) (a b : RegNo) (imm : BitVec 16) :
    RegResult s a (s.readReg b ^^^ extImm e imm) (exec (.lXori16 a b imm) s) := by
  have hexec : exec (.lXori16 a b imm) s = writeResult s a (s.readReg b ^^^ extImm s.params.xori16Ext imm) :=
    needClass3_of_on hon _
  rw [hexec, hext]
  exact regResult_writeResult s a _

/-- "only a zero-extended immediate confines the operation to the low half word" (R124). -/
theorem xor_zext_half (v : Word) (i : BitVec 16) :
    v ^^^ i.setWidth 32 = v.extractLsb' 16 16 ++ (v.extractLsb' 0 16 ^^^ i) := by
  have hv : v.extractLsb' 16 16 ++ v.extractLsb' 0 16 = v := (extract_join v 0 16 16).trans (extract_all v)
  have hi : i.setWidth 32 = 0#16 ++ i := BitVec.setWidth_eq_append (by decide)
  calc v ^^^ i.setWidth 32
      = (v.extractLsb' 16 16 ++ v.extractLsb' 0 16) ^^^ (0#16 ++ i) := by rw [hv, hi]
    _ = (v.extractLsb' 16 16 ^^^ 0#16) ++ (v.extractLsb' 0 16 ^^^ i) := BitVec.xor_append
    _ = v.extractLsb' 16 16 ++ (v.extractLsb' 0 16 ^^^ i) := by rw [BitVec.xor_zero]

/-- Settles O40: the two readings of the immediate are `extImm`'s two cases. -/
theorem xorImmediateHalfWord : Obligations.XorImmediateHalfWord := by
  refine fun s a b imm => ⟨rfl, fun hon hext => ⟨?zero, xor_zext_half (s.readReg b) imm⟩, fun hon hext => ?sign,
    fun hoff => ?off⟩
  case zero => exact regResult_lXori16 hon hext a b imm
  case sign => exact regResult_lXori16 hon hext a b imm
  case off => exact switchedOffClassesRaise (.lXori16 a b imm) s (.inr ⟨rfl, hoff⟩)

/-! ### Half words put together (R125, R126, R247) -/

theorem setHigh_setLow (v : Word) (lo hi : BitVec 16) : setHigh (setLow v lo) hi = hi ++ lo := by
  rw [setHigh, setLow, extract_lo _ _ (by decide), extract_all]

theorem setLow_setHigh (v : Word) (lo hi : BitVec 16) : setLow (setHigh v hi) lo = hi ++ lo := by
  rw [setLow, setHigh, extract_hi _ _ (by decide), extract_all]

/-- What a second write to x[a] computes from the value written first; on the hard-wired register 0 both writes are
dropped (R22). -/
theorem regResult_update_after_write {s t : State} {a : RegNo} {v : Word} (h : writeResult s a v = .next t)
    (f : Word → Word) : RegResult t a (f v) (writeResult t a (f (t.readReg a))) := by
  have hread : t.readReg a = regValue t a v := by
    cases h
    rw [State.readReg_writeReg_same, regValue, State.writeReg_params]
  have hvalue : regValue t a (f (t.readReg a)) = regValue t a (f v) := by
    rw [hread]
    unfold regValue
    split <;> rfl
  have hwrite := regResult_writeResult t a (f (t.readReg a))
  rwa [RegResult, hvalue] at hwrite

/-- Settles O41: in either order the second instruction keeps the half the first one wrote. -/
theorem halfWordImmediatesBuildConstants : Obligations.HalfWordImmediatesBuildConstants := by
  refine fun s a lo hi => ⟨?low, ?high, fun t ht => ?lowHigh, fun t ht => ?highLow⟩
  case low => exact regResult_writeResult s a (setLow (s.readReg a) lo)
  case high => exact regResult_writeResult s a (setHigh (s.readReg a) hi)
  case lowHigh =>
    rw [← setHigh_setLow (s.readReg a)]
    exact regResult_update_after_write ht (setHigh · hi)
  case highLow =>
    rw [← setLow_setHigh (s.readReg a)]
    exact regResult_update_after_write ht (setLow · lo)

end Sys2Proof.Proofs
end

section
/-! 32-bit register-register instructions (43_l_alu.md R130 to R144): shifts, logic and subtraction complete with
`writeResult` and nothing else, the products behind the test of Class 2; a quotient stands behind the test of Class 3 and
notes its divisor. -/

namespace Sys2Proof.Proofs

open Sys2Proof Sys2Proof.Machine

/-- Settles O42: `regResult_writeResult` is the write with its frame. -/
theorem subtractAndLogic : Obligations.SubtractAndLogic := by
  refine fun s a b c => ⟨⟨rfl, rfl, rfl, rfl⟩, ?sub, ?and, ?or, ?xor⟩
  case sub => exact regResult_writeResult s a (s.readReg b - s.readReg c)
  case and => exact regResult_writeResult s a (s.readReg b &&& s.readReg c)
  case or => exact regResult_writeResult s a (s.readReg b ||| s.readReg c)
  case xor => exact regResult_writeResult s a (s.readReg b ^^^ s.readReg c)

/-! ### Shifts (R132 to R134) -/

theorem shiftLeft_getLsbD (v : Word) (n : Nat) {k : Nat} (hk : k < 32) :
    (shiftLeft v n).getLsbD k = if k < n then false else v.getLsbD (k - n) := by
  rw [shiftLeft, BitVec.getLsbD_shiftLeft]
  split <;> simp [*]

theorem shiftRightArith_getLsbD (v : Word) (n : Nat) {k : Nat} (hk : k < 32) :
    (shiftRightArith v n).getLsbD k = if k + n < 32 then v.getLsbD (k + n) else v.msb := by
  rw [shiftRightArith, BitVec.getLsbD_sshiftRight, Nat.add_comm n k]
  simp [hk]

theorem shiftRightArith_toInt (v : Word) (n : Nat) : (shiftRightArith v n).toInt = v.toInt.fdiv (2 ^ n) := by
  calc (shiftRightArith v n).toInt = v.toInt >>> n := BitVec.toInt_sshiftRight
    _ = v.toInt / 2 ^ n := by rw [Int.shiftRight_eq_div_pow]; push_cast; rfl
    _ = v.toInt.fdiv (2 ^ n) := (Int.fdiv_eq_ediv_of_nonneg _ (by positivity)).symm

theorem shiftRightLogical_getLsbD (v : Word) (n k : Nat) :
    (shiftRightLogical v n).getLsbD k = if k + n < 32 then v.getLsbD (k + n) else false := by
  rw [shiftRightLogical, BitVec.getLsbD_ushiftRight, Nat.add_comm n k]
  split
  · rfl
  · exact BitVec.getLsbD_of_ge v _ (by omega)

theorem shiftRightLogical_toNat (v : Word) (n : Nat) : (shiftRightLogical v n).toNat = v.toNat / 2 ^ n :=
  (BitVec.toNat_ushiftRight v n).trans (Nat.shiftRight_eq_div_pow v.toNat n)

/-- Settles O43: the count is the model's `shiftCount`, and each shift is described bit by bit and as an integer above. -/
theorem shiftsByTheCombinedCount : Obligations.ShiftsByTheCombinedCount := by
  intro s a b c l n hn
  obtain rfl : n = shiftCount s c l := hn
  refine ⟨⟨rfl, rfl, rfl⟩, ⟨shiftLeft (s.readReg b) (shiftCount s c l), ?left⟩,
    ⟨shiftRightArith (s.readReg b) (shiftCount s c l), ?arith⟩,
    ⟨shiftRightLogical (s.readReg b) (shiftCount s c l), ?logical⟩⟩
  case left => exact ⟨regResult_writeResult s a _, fun _ hk => shiftLeft_getLsbD _ _ hk⟩
  case arith =>
    exact ⟨regResult_writeResult s a _, fun _ hk => shiftRightArith_getLsbD _ _ hk, shiftRightArith_toInt _ _⟩
  case logical =>
    exact ⟨regResult_writeResult s a _, fun k _ => shiftRightLogical_getLsbD _ _ k, shiftRightLogical_toNat _ _⟩

/-! ### Products (R131, R139, R140) -/

/-- Modulo 2^32 a product does not depend on how the operands' sign bits are read (R131). -/
theorem mulSigned_eq_mulUnsigned (x y : Word) : mulSigned x y = mulUnsigned x y := by
  calc mulSigned x y = x * y := by simp only [mulSigned, BitVec.ofInt_mul, BitVec.ofInt_toInt]
    _ = mulUnsigned x y := by simp only [mulUnsigned, BitVec.ofNat_mul, BitVec.ofNat_toNat, BitVec.setWidth_eq]

/-- Settles O44: with the class on each is the write of its product, and the two products are equal. -/
theorem multipliesAgree : Obligations.MultipliesAgree := by
  refine fun s a b c => ⟨rfl, rfl, fun hon => ?on, fun hoff => ?off⟩
  case on =>
    have hsigned : exec (.lMul32s a b c) s = writeResult s a (mulSigned (s.readReg b) (s.readReg c)) :=
      needClass2_of_on hon _
    have hunsigned : exec (.lMul32u a b c) s = writeResult s a (mulUnsigned (s.readReg b) (s.readReg c)) :=
      needClass2_of_on hon _
    rw [hsigned, hunsigned]
    exact ⟨regResult_writeResult s a _, regResult_writeResult s a _,
      congrArg (writeResult s a) (mulSigned_eq_mulUnsigned _ _)⟩
  case off =>
    rintro i (rfl | rfl)
    · exact switchedOffClassesRaise (.lMul32s a b c) s (.inl ⟨rfl, hoff⟩)
    · exact switchedOffClassesRaise (.lMul32u a b c) s (.inl ⟨rfl, hoff⟩)

/-! ### Quotients (R141 to R143) -/

theorem divUnsigned_of_ne_zero (n : Word) {d : Word} (hd : d ≠ 0) :
    divUnsigned n d = some (BitVec.ofNat 32 (n.toNat / d.toNat)) :=
  if_neg hd

theorem divUnsigned_zero (n : Word) : divUnsigned n 0 = none := if_pos rfl

theorem divSigned_of_fits {n d : Word} (hd : d ≠ 0) (hfits : ¬(n = 0x80000000 ∧ d = 0xFFFFFFFF)) :
    divSigned n d = some (BitVec.ofInt 32 (n.toInt.tdiv d.toInt)) := by
  rw [divSigned, if_neg hd, if_neg hfits]

theorem divSigned_zero (n : Word) : divSigned n 0 = none := if_pos rfl

theorem divSigned_overflow : divSigned 0x80000000 0xFFFFFFFF = none := by decide

/-- An unsigned quotient is no larger than its dividend, so a word holds it. -/
theorem toNat_quotient (n d : Word) : (BitVec.ofNat 32 (n.toNat / d.toNat)).toNat = n.toNat / d.toNat := by
  rw [BitVec.toNat_ofNat]
  exact Nat.mod_eq_of_lt ((Nat.div_le_self _ _).trans_lt n.isLt)

/-- -2^31 / -1 = 2^31 is the only signed quotient a word does not hold. -/
theorem toInt_quotient {n d : Word} (hfits : ¬(n = 0x80000000 ∧ d = 0xFFFFFFFF)) :
    (BitVec.ofInt 32 (n.toInt.tdiv d.toInt)).toInt = n.toInt.tdiv d.toInt := by
  calc (BitVec.ofInt 32 (n.toInt.tdiv d.toInt)).toInt
      = (n.toInt.tdiv d.toInt).bmod (2 ^ 32) := BitVec.toInt_ofInt _
    _ = (n.sdiv d).toInt := (BitVec.toInt_sdiv n d).symm
    _ = n.toInt.tdiv d.toInt := BitVec.toInt_sdiv_of_ne_or_ne n d (not_and_or.mp hfits)

/-- A quotient the table gives is the whole effect when the divisor is not zero (R28). -/
theorem regResult_writeQuotient_some (s : State) (a : RegNo) (v : Word) {d : Word} (hd : d ≠ 0) :
    RegResult s a v (.next ((s.writeQuotient a (some v)).noteDivisor d)) := by
  have hnote : (s.writeQuotient a (some v)).noteDivisor d = s.writeReg a v := if_neg hd
  rw [hnote]
  exact regResult_writeReg s a v

/-- `t` is `s` with the next value of `draw_32()` in x[a] and the divisor `d` noted; the draw counter, which is the
model's own, may be anything (R143; log 12). -/
structure FreeQuotient (s : State) (a : RegNo) (d : Word) (t : State) : Prop where
  value : t.readReg a = regValue s a (Config.draw32 s.draws)
  divflag : t.divflag = if d = 0 then true else s.divflag
  flag : t.flag = s.flag
  regs : SameRegsBut a s t
  memory : SameMemory s t
  specials : SameSpecials s t
  mode : SameMode s t
  control : SameControl s t

/-- What a division does where the table gives no quotient. -/
theorem freeQuotient_writeQuotient_none (s : State) (a : RegNo) (d : Word) :
    FreeQuotient s a d ((s.writeQuotient a none).noteDivisor d) := by
  have hread : ∀ r, ((s.writeQuotient a none).noteDivisor d).readReg r =
      (s.writeReg a (Config.draw32 s.draws)).readReg r := fun r =>
    State.readReg_congr (State.noteDivisor_regs _ d) (by simp) r
  exact {
    value := (hread a).trans (State.readReg_writeReg_same s a _)
    divflag := by rw [noteDivisor_divflag, State.writeQuotient_divflag]
    flag := by simp
    regs := fun r hr => (hread r).trans (State.readReg_writeReg_other s _ hr)
    memory := fun x => State.byteAt_congr (by simp) (by simp) x
    specials := fun n => State.readSpr_congr (by simp) n
    mode := ⟨by simp, by simp⟩
    control := ⟨by simp, by simp⟩ }

/-- Settles O45: by the rows of R143's table, a quotient (`regResult_writeQuotient_some`) or a free value
(`freeQuotient_writeQuotient_none`). -/
theorem divisionFollowsTheTable : Obligations.DivisionFollowsTheTable := by
  refine fun s a b c => ⟨rfl, rfl, fun hoff => ?off, fun hon => ?on⟩
  case off =>
    rintro i (rfl | rfl)
    · exact switchedOffClassesRaise (.lDiv32s a b c) s (.inr ⟨rfl, hoff⟩)
    · exact switchedOffClassesRaise (.lDiv32u a b c) s (.inr ⟨rfl, hoff⟩)
  case on =>
    have hsigned : exec (.lDiv32s a b c) s = .next
        ((s.writeQuotient a (divSigned (s.readReg b) (s.readReg c))).noteDivisor (s.readReg c)) :=
      needClass3_of_on hon _
    have hunsigned : exec (.lDiv32u a b c) s = .next
        ((s.writeQuotient a (divUnsigned (s.readReg b) (s.readReg c))).noteDivisor (s.readReg c)) :=
      needClass3_of_on hon _
    refine ⟨fun hd => ?unsigned, fun hd hfits => ?signed, fun hmin hneg => ?overflow, fun hzero => ?zeroDivisor⟩
    case unsigned =>
      rw [hunsigned, divUnsigned_of_ne_zero _ hd]
      exact ⟨_, regResult_writeQuotient_some s a _ hd, toNat_quotient _ _⟩
    case signed =>
      rw [hsigned, divSigned_of_fits hd hfits]
      exact ⟨_, regResult_writeQuotient_some s a _ hd, toInt_quotient hfits⟩
    case overflow =>
      rw [hmin, hneg, divSigned_overflow] at hsigned
      have hfree := freeQuotient_writeQuotient_none s a 0xFFFFFFFF
      exact ⟨_, hsigned, hfree.value, hfree.regs, hfree.memory, hfree.specials, ⟨hfree.flag, hfree.divflag⟩,
        hfree.mode, hfree.control⟩
    case zeroDivisor =>
      rw [hzero, divSigned_zero] at hsigned
      rw [hzero, divUnsigned_zero] at hunsigned
      have hfree := freeQuotient_writeQuotient_none s a 0
      rintro i (rfl | rfl)
      · exact ⟨_, hsigned, hfree.value, hfree.divflag, hfree.flag, hfree.regs, hfree.memory, hfree.specials,
          hfree.mode, hfree.control⟩
      · exact ⟨_, hunsigned, hfree.value, hfree.divflag, hfree.flag, hfree.regs, hfree.memory, hfree.specials,
          hfree.mode, hfree.control⟩

end Sys2Proof.Proofs
end

section
/-! The 32-bit system instructions (44_l_system.md R150 to R158): the cache and TLB instructions, which stop in both modes,
and the moves to and from the special registers. -/

namespace Sys2Proof.Proofs

open Sys2Proof Sys2Proof.Machine

/-! ### The mode test and the special-register test (R227 items 9 and 13) -/

theorem needSupervisor_of_supervisor {s : State} (hm : s.mode = .supervisor) (r : Result) : needSupervisor s r = r := by
  simp only [needSupervisor, hm]

theorem needSupervisor_of_user {s : State} (hm : s.mode = .user) (r : Result) :
    needSupervisor s r = .fault .privilegeViolation := by
  simp only [needSupervisor, hm]

theorem needPlainSpr_of_mem {n : SprNo} {s : State} (hn : n ∈ s.params.sprPlain) (r : Result) :
    needPlainSpr n s r = r :=
  if_pos (List.contains_iff_mem.mpr hn)

theorem needPlainSpr_of_not_mem {n : SprNo} {s : State} (hn : n ∉ s.params.sprPlain) (r : Result) :
    needPlainSpr n s r = .refused .unknownSpecialRegister :=
  if_neg (mt List.contains_iff_mem.mp hn)

/-! ### Who writes a special register (10_state.md section 1) -/

/-- A special register that the instruction does not name as the target of l.mtsr reads as before. -/
theorem effect_readSpr_of_not_named {i : Instr} {s t : State} (h : Effect i s t) {m : SprNo}
    (hm : ∀ a, i ≠ .lMtsr m a) : t.readSpr m = s.readSpr m := by
  cases h with
  | special n a hi _ v =>
    have hne : m ≠ n := by
      rintro rfl
      exact hm a hi
    exact State.readSpr_writeSpr_other s v hne
  | _ => exact State.readSpr_congr (by simp) m

/-- Settles O21: an l.mtsr of `n` names no register but `n`, and any other instruction names none. -/
theorem onlyMtsrWritesSpecialRegisters : Obligations.OnlyMtsrWritesSpecialRegisters := by
  intro i s t hexec
  refine ⟨?_, fun hi m => effect_readSpr_of_not_named (exec_next hexec) (hi m)⟩
  rintro n a rfl m hne
  refine effect_readSpr_of_not_named (exec_next hexec) fun b hsame => hne ?_
  cases hsame
  rfl

/-! ### The cache and TLB instructions (R150 to R156) -/

/-- Settles O52: each of the six is the mode test in front of the same refusal. -/
theorem cacheAndTlbInstructionsStop : Obligations.CacheAndTlbInstructionsStop := by
  intro s a j i
  refine ⟨⟨rfl, rfl, rfl⟩, fun hi => ?_⟩
  have hexec : exec i s = needSupervisor s (.refused .semanticsTBD) := by
    rcases hi with rfl | rfl | rfl | rfl | rfl | rfl <;> rfl
  rw [hexec]
  exact ⟨fun hm => needSupervisor_of_supervisor hm _, fun hm => needSupervisor_of_user hm _⟩

/-! ### The moves to and from special registers (R157, R158) -/

theorem exec_lMtsr_of_supervisor {s : State} (hm : s.mode = .supervisor) (n : SprNo) (a : RegNo) :
    exec (.lMtsr n a) s = needPlainSpr n s (.next (s.writeSpr n (s.readReg a))) :=
  needSupervisor_of_supervisor hm _

theorem exec_lMfsr_of_supervisor {s : State} (hm : s.mode = .supervisor) (a : RegNo) (n : SprNo) :
    exec (.lMfsr a n) s = needPlainSpr n s (writeResult s a (s.readSpr n)) :=
  needSupervisor_of_supervisor hm _

/-- Settles O53: behind the two tests l.mtsr is `State.writeSpr` and l.mfsr is `writeResult`. -/
theorem specialRegisterMoves : Obligations.SpecialRegisterMoves := by
  intro s n a hm
  rw [exec_lMtsr_of_supervisor hm, exec_lMfsr_of_supervisor hm]
  refine ⟨fun hplain => ?plain, fun hother => ?other⟩
  case plain =>
    rw [needPlainSpr_of_mem hplain, needPlainSpr_of_mem hplain]
    refine ⟨⟨_, rfl, State.readSpr_writeSpr_same s n _, fun m hne => State.readSpr_writeSpr_other s _ hne, ?_⟩,
      regResult_writeResult s a _⟩
    exact ⟨fun _ => rfl, fun _ => rfl, ⟨rfl, rfl⟩, ⟨rfl, rfl⟩, ⟨rfl, rfl⟩, rfl⟩
  case other =>
    exact ⟨needPlainSpr_of_not_mem hother _, needPlainSpr_of_not_mem hother _⟩

end Sys2Proof.Proofs
end

section
/-! The 16-bit compares and the move (45_h_compare_move.md R170 to R181): each compare completes with `compareRegs` of its
relation and nothing else, h.mov32 with `writeResult` behind the test of Class 2. -/

namespace Sys2Proof.Proofs

open Sys2Proof Sys2Proof.Machine

/-- Settles O46: each compare is `compareRegs` of its relation (R170), and `flagResult_compareRegs` is the write of the
compare flag with its frame. -/
theorem comparesWriteTheRelation : Obligations.ComparesWriteTheRelation := by
  refine fun s a b => ⟨?encodings, ?eq, ?ne, ?gtSigned, ?geSigned, ?ltSigned, ?leSigned, ?gtUnsigned, ?geUnsigned,
    ?ltUnsigned, ?leUnsigned⟩
  case encodings => exact ⟨rfl, rfl, rfl, rfl, rfl, rfl, rfl, rfl, rfl, rfl⟩
  case eq => exact flagResult_compareRegs relEq a b s
  case ne => exact flagResult_compareRegs relNe a b s
  case gtSigned => exact flagResult_compareRegs relGtS a b s
  case geSigned => exact flagResult_compareRegs relGeS a b s
  case ltSigned => exact flagResult_compareRegs relLtS a b s
  case leSigned => exact flagResult_compareRegs relLeS a b s
  case gtUnsigned => exact flagResult_compareRegs relGtU a b s
  case geUnsigned => exact flagResult_compareRegs relGeU a b s
  case ltUnsigned => exact flagResult_compareRegs relLtU a b s
  case leUnsigned => exact flagResult_compareRegs relLeU a b s

/-- A register that is given the value it holds keeps it, the hard-wired register 0 too (R22). -/
theorem readReg_writeReg_self (s : State) (a : RegNo) : (s.writeReg a (s.readReg a)).readReg a = s.readReg a := by
  rw [State.readReg_writeReg_same]
  split
  next hwired =>
    obtain ⟨hz, rfl⟩ := hwired
    exact (register_zero_hardwired hz 0).1.symm
  next => rfl

/-- The source of a move reads as before, also where it is the destination. -/
theorem readReg_source_of_move (s : State) (a b : RegNo) :
    (s.writeReg a (s.readReg b)).readReg b = s.readReg b := by
  by_cases hsame : b = a
  · subst hsame
    exact readReg_writeReg_self s b
  · exact State.readReg_writeReg_other s _ hsame

/-- Settles O47: with the class on h.mov32 is the write of x[b], which leaves x[b] (`readReg_source_of_move`). -/
theorem moveCopiesTheRegister : Obligations.MoveCopiesTheRegister := by
  intro s a b hon
  have hexec : exec (.hMov32 a b) s = writeResult s a (s.readReg b) := needClass2_of_on hon _
  rw [hexec]
  refine ⟨regResult_writeResult s a (s.readReg b), fun t hnext => ?_⟩
  cases hnext
  exact readReg_source_of_move s a b

end Sys2Proof.Proofs
end

section
/-! The 16-bit extends, h.nop, h.jalr and h.sched (46_h_ext_nop_jalr.md R190 to R196; 47_h_mem_add_imm_branch.md R208): an
extend completes with `writeResult` of the widened low part, h.jalr is `jumpAndLink` to a register's value, the other two
answer the state itself. -/

namespace Sys2Proof.Proofs

open Sys2Proof Sys2Proof.Machine

/-! ### The jump to a register (R195) -/

/-- Outside a slot, a taken transfer to an odd target is refused (R30). -/
theorem delayed_odd {s : State} (hnone : s.dslot = none) {target : Word} (hodd : target.getLsbD 0 = true) (d : Word) :
    delayed true target d s = .refused .oddTarget := by
  simp [delayed, hnone, hodd]

theorem jumpAndLink_odd {s : State} (hnone : s.dslot = none) {target : Word} (hodd : target.getLsbD 0 = true)
    (d : Word) : jumpAndLink target d s = .refused .oddTarget :=
  delayed_odd ((State.writeReg_dslot s _ _).trans hnone) hodd d

/-- Settles O30: h.jalr is `jumpAndLink` to x[A] as `s` holds it, so the link register is written after the target is
read; bit 0 of the target decides between the jump and the refusal. -/
theorem jumpRegisterLinksAndJumps : Obligations.JumpRegisterLinksAndJumps := by
  refine fun s a hnone => ⟨fun heven => ?jumps, fun hodd => ?odd⟩
  case jumps => exact linkResult_jumpAndLink hnone (slotAddrH s) heven
  case odd => exact jumpAndLink_odd hnone hodd (slotAddrH s)

/-! ### The extends (R191 to R193, R196) -/

/-- The low `n` bits sign-extended: above them stand copies of the top one. -/
theorem sext_low_getLsbD (v : Word) {n k : Nat} (hn : 0 < n) (hk : k < 32) :
    (sext (v.extractLsb' 0 n)).getLsbD k = v.getLsbD (if k < n then k else n - 1) := by
  rw [sext, BitVec.getLsbD_signExtend]
  split
  next hlow => simp [hk, hlow]
  next => simp [hk, hn, BitVec.msb_eq_getLsbD_last]

/-- The low `n` bits zero-extended. -/
theorem zext_low_getLsbD (v : Word) {n k : Nat} (hk : k < 32) :
    (zext (v.extractLsb' 0 n)).getLsbD k = if k < n then v.getLsbD k else false := by
  rw [zext, BitVec.getLsbD_setWidth]
  split
  next hlow => simp [hk, hlow]
  next hhigh => simp [hhigh]

/-- Settles O48: with the class on each extend is the write of the widened low part of x[a], whose bits are those of
`sext_low_getLsbD` or `zext_low_getLsbD`. -/
theorem extendsFillTheHighBits : Obligations.ExtendsFillTheHighBits := by
  intro s a hon
  have hsigned16 : exec (.hExt16s a) s = writeResult s a (sext ((s.readReg a).extractLsb' 0 16)) :=
    needClass2_of_on hon _
  have hzero16 : exec (.hExt16z a) s = writeResult s a (zext ((s.readReg a).extractLsb' 0 16)) :=
    needClass2_of_on hon _
  have hsigned8 : exec (.hExt8s a) s = writeResult s a (sext ((s.readReg a).extractLsb' 0 8)) :=
    needClass2_of_on hon _
  have hzero8 : exec (.hExt8z a) s = writeResult s a (zext ((s.readReg a).extractLsb' 0 8)) :=
    needClass2_of_on hon _
  rw [hsigned16, hzero16, hsigned8, hzero8]
  refine ⟨⟨rfl, rfl, rfl, rfl⟩, ⟨_, regResult_writeResult s a _, fun k hk => ?signed16⟩,
    ⟨_, regResult_writeResult s a _, fun k hk => ?zero16⟩, ⟨_, regResult_writeResult s a _, fun k hk => ?signed8⟩,
    ⟨_, regResult_writeResult s a _, fun k hk => ?zero8⟩⟩
  case signed16 | signed8 => exact sext_low_getLsbD _ (by decide) hk
  case zero16 | zero8 => exact zext_low_getLsbD _ hk

/-! ### The instructions without an effect (R194, R208) -/

/-- h.nop's reserved field is bits 7:3 (R81). -/
theorem decode_nop_reserved {r : BitVec 5} (hr : r ≠ 0) :
    decode (.half (0x4B#8 ++ r ++ 4#3)) = .error .reservedField := by
  have hbyte : (0x4B#8 ++ r ++ 4#3).extractLsb' 8 8 = 0x4B#8 :=
    (extract_hi _ _ (by decide)).trans ((extract_hi _ _ (by decide)).trans (extract_all _))
  have hfield : (0x4B#8 ++ r ++ 4#3).extractLsb' 3 5 = r :=
    (extract_hi _ _ (by decide)).trans ((extract_lo _ _ (by decide)).trans (extract_all _))
  have hop : (0x4B#8 ++ r ++ 4#3).extractLsb' 0 3 = 4#3 := (extract_lo _ _ (by decide)).trans (extract_all _)
  obtain ⟨-, hhalf⟩ := reservedFieldsAreThoseOfTheFigures
  refine (hhalf _).mpr ⟨congrArg BitVec.toNat hbyte, .inr ⟨?_, congrArg BitVec.toNat hop⟩⟩
  rwa [hfield]

/-- Settles O49: both answer the state itself, h.sched behind its class test; h.nop's reserved field is
`decode_nop_reserved`. -/
theorem nopAndScheduleChangeNothing : Obligations.NopAndScheduleChangeNothing := by
  refine fun s z => ⟨⟨rfl, rfl, rfl, fun r hr => decode_nop_reserved hr⟩, rfl, rfl, fun hon => ?on, fun hoff => ?off⟩
  case on => exact needClass3_of_on hon (.next s)
  case off => exact switchedOffClassesRaise (.hSched z) s (.inr ⟨rfl, hoff⟩)

end Sys2Proof.Proofs
end

section
/-! 16-bit memory access, addition, immediate, jumps and branches (47_h_mem_add_imm_branch.md R200 to R207, R209): all but
h.add32s do what their 32-bit companion does, behind the test of Class 2; for a jump or branch D = pc + 2. -/

namespace Sys2Proof.Proofs

open Sys2Proof Sys2Proof.Machine

/-! ### Jumps and branches (R204 to R207, R209) -/

/-- R209: from an even pc the target `D + sext_32(X ++ 0b00)` is even, so `delayed` does not refuse it. -/
theorem targetH_even {s : State} (hpc : s.pc.getLsbD 0 = false) (x : BitVec 12) : (targetH s x).getLsbD 0 = false :=
  target_even (pc_add_len_even hpc (.half 0)) x

/-- With Class 2 implemented the two h.jal encodings have one meaning, "exactly those of rule R205" (R204). -/
theorem exec_short_jal {s : State} {x : BitVec 12} {i : Instr} (hi : i = .hJal9 x ∨ i = .hJalA x)
    (hon : s.params.implClass2 = true) : exec i s = jumpAndLink (targetH s x) (slotAddrH s) s := by
  rcases hi with rfl | rfl
  · exact needClass2_of_on hon _
  · exact needClass2_of_on hon _

/-- Settles O29: behind the class test both encodings are `jumpAndLink`, whose link value is D + 4. -/
theorem shortJumpAndLinkWritesReturnAddress : Obligations.ShortJumpAndLinkWritesReturnAddress := by
  refine fun s x => ⟨rfl, rfl, fun i hi => ⟨fun hon hnone hpc => ?links, fun hon hslot => ?inSlot, fun hoff => ?off⟩⟩
  case links =>
    rw [exec_short_jal hi hon]
    exact linkResult_jumpAndLink hnone (slotAddrH s) (targetH_even hpc x)
  case inSlot =>
    obtain ⟨d, hd⟩ := Option.ne_none_iff_exists'.mp hslot
    rw [exec_short_jal hi hon]
    exact jumpAndLink_in_slot hd _ _
  case off =>
    have hclass : insnClass i = 2 := by rcases hi with rfl | rfl <;> rfl
    exact switchedOffClassesRaise i s (.inl ⟨hclass, hoff⟩)

/-- Settles O31: the two branches differ only in the condition they read off the flag. -/
theorem shortBranchesReadTheFlag : Obligations.ShortBranchesReadTheFlag := by
  intro s x hon hnone hpc
  have heven : (targetH s x).getLsbD 0 = false := targetH_even hpc x
  have hclear : (!s.flag) = true ↔ s.flag = false := by simp
  have hbnf : exec (.hBnf x) s = delayed (!s.flag) (targetH s x) (slotAddrH s) s := needClass2_of_on hon _
  have hbf : exec (.hBf x) s = delayed s.flag (targetH s x) (slotAddrH s) s := needClass2_of_on hon _
  rw [hbnf, hbf]
  exact ⟨slotResult_branch hnone hclear heven (slotAddrH s), slotResult_branch hnone Iff.rfl heven (slotAddrH s)⟩

/-! ### The load and the store (R200, R201) -/

/-- Settles O33: with the class on h.load32u is `loadInto` of the word the readable bytes are put together to. -/
theorem shortLoadReadsAWord : Obligations.ShortLoadReadsAWord := by
  intro s a b n b0 b1 b2 b3 hon hread
  have hexec : exec (.hLoad32u a b n) s = loadInto s a (memRead32 s (effAddr s b n)) := needClass2_of_on hon _
  rw [hexec]
  exact regResult_loadInto a (memRead32_of_readable hread)

/-- Settles O35: with the class on h.stor32 is `memWrite` of the four bytes of x[B]. -/
theorem shortStoreWritesAWord : Obligations.ShortStoreWritesAWord := by
  intro s a b n hon hw
  have hexec : exec (.hStor32 a b n) s = memWrite s (effAddr s a n) (bytes32 (s.readReg b)) := needClass2_of_on hon _
  rw [hexec]
  exact storeResult_memWrite (bs := bytes32 (s.readReg b)) hw (by simp [bytes32])

/-! ### The addition and the immediate byte (R202, R203) -/

/-- Settles O50: the half word is the encoding, D in bits 11:8, so it decodes to the instruction; its result is one write. -/
theorem addTakesTheRegisterOfFieldD : Obligations.AddTakesTheRegisterOfFieldD :=
  fun s a b d => ⟨decode_of_encode_eq rfl rfl, regResult_writeResult s a (s.readReg b + s.readReg d)⟩

/-- The encoder parts M again into bits 11:8 and 3:0 (R71). -/
theorem encode_hImmch32s_append (a : RegNo) (mhi mlo : BitVec 4) :
    encode (.hImmch32s a (mhi ++ mlo)) = .half (0x8#4 ++ mhi ++ a ++ mlo) := by
  have hhigh : (mhi ++ mlo).extractLsb' 4 4 = mhi := (extract_hi _ _ (by decide)).trans (extract_all _)
  have hlow : (mhi ++ mlo).extractLsb' 0 4 = mlo := (extract_lo _ _ (by decide)).trans (extract_all _)
  exact congrArg₂ (fun high low => encHNRR 0x8 high a low) hhigh hlow

/-- Settles O51: `encode_hImmch32s_append` gives the decoding and the word the exception reports. -/
theorem immediateByteIsSignExtended : Obligations.ImmediateByteIsSignExtended := by
  intro s a mhi mlo
  have henc := encode_hImmch32s_append a mhi mlo
  refine ⟨decode_of_encode_eq henc rfl, fun hon => ?on, fun hoff => ?off⟩
  case on =>
    have hexec : exec (.hImmch32s a (mhi ++ mlo)) s = writeResult s a (sext (mhi ++ mlo)) := needClass2_of_on hon _
    rw [hexec]
    exact regResult_writeResult s a _
  case off =>
    rw [← henc]
    exact switchedOffClassesRaise (.hImmch32s a (mhi ++ mlo)) s (.inl ⟨rfl, hoff⟩)

end Sys2Proof.Proofs
end

section
/-! How a data access stops (60_exceptions.md R227 item 15; 20_memory.md R44 to R47, R55): one rule for the ten memory
instructions. -/

namespace Sys2Proof.Proofs

open Sys2Proof Sys2Proof.Machine

/-- Why an access of `n` bytes at `ea` stops: one of the tests of `dataCheck` answers, or a load passes them all and
reads a byte that holds no value. -/
inductive AccessStop (s : State) (ea : Word) (n : Nat) : Bool → Stop → Prop where
  | check {store : Bool} {st : Stop} (h : dataCheck s.params ea n store = some st) : AccessStop s ea n store st
  | noValue (hpass : dataCheck s.params ea n false = none) (k : Nat) (hk : k < n)
      (hnone : s.byteAt (ea + BitVec.ofNat 32 k) = none) : AccessStop s ea n false (.fault .unwrittenRead)

theorem memRead8_stop {s : State} {ea : Word} {st : Stop} (h : AccessStop s ea 1 false st) :
    memRead8 s ea = .error st := by
  unfold memRead8
  cases h with
  | check hcheck => rw [hcheck]
  | noValue hpass k hk hnone =>
    simp only [hpass]
    split
    next b0 h0 =>
      match k, hk, hnone with
      | 0, _, hnone => simp [h0] at hnone
    next => rfl

theorem memRead16_stop {s : State} {ea : Word} {st : Stop} (h : AccessStop s ea 2 false st) :
    memRead16 s ea = .error st := by
  unfold memRead16
  cases h with
  | check hcheck => rw [hcheck]
  | noValue hpass k hk hnone =>
    simp only [hpass]
    split
    next b0 b1 h0 h1 =>
      match k, hk, hnone with
      | 0, _, hnone => simp [h0] at hnone
      | 1, _, hnone => cases h1.symm.trans hnone
    next => rfl

theorem memRead32_stop {s : State} {ea : Word} {st : Stop} (h : AccessStop s ea 4 false st) :
    memRead32 s ea = .error st := by
  unfold memRead32
  cases h with
  | check hcheck => rw [hcheck]
  | noValue hpass k hk hnone =>
    simp only [hpass]
    split
    next b0 b1 b2 b3 h0 h1 h2 h3 =>
      match k, hk, hnone with
      | 0, _, hnone => simp [h0] at hnone
      | 1, _, hnone => cases h1.symm.trans hnone
      | 2, _, hnone => cases h2.symm.trans hnone
      | 3, _, hnone => cases h3.symm.trans hnone
    next => rfl

theorem memWrite_stop {s : State} {ea : Word} {bs : List Byte} {st : Stop}
    (h : AccessStop s ea bs.length true st) : memWrite s ea bs = st.out := by
  cases h with
  | check hcheck => rw [memWrite, hcheck]

/-- A load whose access stops writes nothing (R110, R227). -/
theorem loadInto_stop {s : State} {a : RegNo} {r : Except Stop Word} {st : Stop} (h : r = .error st) :
    loadInto s a r = st.out := by
  subst h
  rfl

/-- A memory instruction of an implemented class stops as its access does. -/
theorem exec_stop_of_access {i : Instr} {s : State} {ea : Word} {n : Nat} {store : Bool} {st : Stop}
    (hi : accessOf i s = some (ea, n, store)) (hclass : classOn i s) (h : AccessStop s ea n store st) :
    exec i s = st.out := by
  obtain ⟨hclass2, -⟩ := hclass
  cases i with
  | lLoad32u a b j => cases hi; exact loadInto_stop (memRead32_stop h)
  | lLoad16u a b j | lLoad16s a b j => cases hi; exact loadInto_stop (congrArg (Except.map _) (memRead16_stop h))
  | lLoad8u a b j | lLoad8s a b j => cases hi; exact loadInto_stop (congrArg (Except.map _) (memRead8_stop h))
  | lStor32 a b j => cases hi; exact memWrite_stop (bs := bytes32 _) h
  | lStor16 a b j => cases hi; exact memWrite_stop (bs := bytes16 _) h
  | lStor8 a b j => cases hi; exact memWrite_stop (bs := bytes8 _) h
  | hLoad32u a b m => cases hi; exact (needClass2_of_on (hclass2 rfl) _).trans (loadInto_stop (memRead32_stop h))
  | hStor32 a b m => cases hi; exact (needClass2_of_on (hclass2 rfl) _).trans (memWrite_stop (bs := bytes32 _) h)
  | _ => cases hi

/-- Settles O36: each premise names the test of `dataCheck` that answers, or says that a load passes them all. -/
theorem dataAccessStopsInOrder : Obligations.DataAccessStopsInOrder := by
  intro i s ea n store hi hclass
  have hstop {st : Stop} (h : AccessStop s ea n store st) : exec i s = st.out := exec_stop_of_access hi hclass h
  refine ⟨fun hmod => ?misaligned, fun haligned => ?outside, ?text, ?noValue⟩
  case misaligned => exact hstop (.check (dataCheck_misaligned hmod))
  case outside =>
    rintro ⟨k, hk, hout⟩
    exact hstop (.check (dataCheck_outsideRam haligned hk hout))
  case text =>
    rintro rfl haligned hram ⟨k, hk, htext⟩
    exact hstop (.check (dataCheck_storeToText haligned hram hk htext))
  case noValue =>
    rintro rfl haligned hram ⟨k, hk, hnone⟩
    have hpass : dataCheck s.params ea n false = none := dataCheck_eq_none.mpr ⟨haligned, hram, by simp⟩
    exact hstop (.noValue hpass k hk hnone)

end Sys2Proof.Proofs
end

section
/-! Who raises which exception (60_exceptions.md R220, R221, R228), and how a fetch or a decoding ends the step (R227 items
1 to 4, 6 and 7). -/

namespace Sys2Proof.Proofs

open Sys2Proof Sys2Proof.Machine

/-! ### The illegal instruction exception and the privilege fault -/

theorem not_classOn_iff {i : Instr} {s : State} : ¬classOn i s ↔
    (insnClass i = 2 ∧ s.params.implClass2 = false) ∨ (insnClass i = 3 ∧ s.params.implClass3 = false) := by
  simp only [classOn, not_and_or, Classical.not_imp, Bool.not_eq_true]

/-- R2's Classes 4, 5 and 6, the supervisor-only instructions: the mode test comes first (R227 item 9). -/
theorem exec_of_supervisor_only {i : Instr} (hi : 4 ≤ insnClass i) (s : State) :
    ∃ r, exec i s = needSupervisor s r := by
  cases i with
  | lDcbf a j | lDcbt a j | lDcbi a j => exact ⟨_, rfl⟩
  | lDcia | lDcfa | lTlbia => exact ⟨_, rfl⟩
  | lMtsr n a | lMfsr a n => exact ⟨_, rfl⟩
  | _ => exact absurd hi (by simp [insnClass])

/-- Settles O56: of the causes of a fault only two give this one. -/
theorem onlyIllegalAndSwitchedOffInstructionsRaise : Obligations.OnlyIllegalAndSwitchedOffInstructionsRaise := by
  intro i s p c handler hexec
  cases exec_fault hexec with
  | illegal hi => exact .inl hi
  | classOff hoff => exact .inr hoff

/-- Settles O54: of the causes of a fault, l.illegal and a switched-off class raise the other exception, which leaves the
mode test; and that test is the outermost one of a supervisor-only instruction. -/
theorem onlySupervisorInstructionsFaultInUserMode : Obligations.OnlySupervisorInstructionsFaultInUserMode := by
  refine fun i s => ⟨fun hexec => ?cause, fun ⟨hmode, hclass⟩ => ?raised⟩
  case cause =>
    cases exec_fault hexec with
    | privilege hclass hmode => exact ⟨hmode, hclass⟩
    | illegal hi => subst hi; cases hexec
    | classOff hoff =>
      have hraise := switchedOffClassesRaise i s (not_classOn_iff.mp hoff)
      cases hraise.symm.trans hexec
  case raised =>
    obtain ⟨r, hexec⟩ := exec_of_supervisor_only hclass s
    exact hexec.trans (needSupervisor_of_user hmode r)

/-! ### Fetching and decoding -/

/-- Settles O10: the four laws of `fetch`'s refusals, each of which ends the step (`step_fetch_error`). -/
theorem fetchRefusesInOrder : Obligations.FetchRefusesInOrder := by
  intro s hover
  refine ⟨fun hodd => ?odd, fun heven hout => ?first, fun h0 heven hfirst htop hfour hpc => ?misaligned,
    fun h0 heven hfirst htop halign hout => ?second⟩
  case odd => exact step_fetch_error hover (fetch_odd hodd)
  case first => exact step_fetch_error hover (fetch_first_error heven (fetchHalf_eq_error hout))
  case misaligned =>
    exact step_fetch_error hover (fetch_long_misaligned heven hfirst ((isLong_iff h0).mpr htop) ⟨hfour, hpc⟩)
  case second =>
    have haddr : s.pc + 2 + 1 = s.pc + 3 := BitVec.add_assoc s.pc 2 1
    have hsecond : fetchHalf s (s.pc + 2) = .error .fetchOutsideText := fetchHalf_eq_error (by rwa [haddr])
    refine step_fetch_error hover ?_
    rw [fetch_long heven hfirst ((isLong_iff h0).mpr htop) halign, hsecond]

/-- Settles O12: `step_decode_error` for the two ways of the decoder to answer no instruction. -/
theorem undecodedWordsStop : Obligations.UndecodedWordsStop :=
  fun _ _ hover hfetch hfits => ⟨fun hdec => step_decode_error hover hfetch hfits hdec,
    fun hdec => step_decode_error hover hfetch hfits hdec⟩

end Sys2Proof.Proofs
end
